-- ==== Sys2Proof/Word.lean ====
section
/-! DEFINITION. The value types of the spec: words, frames, temperatures, readings and the error taxonomy
(spec/00_scope.md R7, R9; spec/60_exceptions.md R90). -/

namespace Sys2Proof

/-- One byte of the frame transaction (R22). -/
abbrev Byte := BitVec 8

/-- A raw frame: 32 bits, bit 0 least significant (R9, R31). -/
abbrev Frame := BitVec 32

/-- An operand or result word of a port (R30, R34). -/
abbrev Word64 := BitVec 64

/-- Bit 0 OPEN_CIRCUIT, bit 1 SHORT_TO_GND, bit 2 SHORT_TO_VCC (R9, R41). -/
abbrev FaultSet := BitVec 3

/-- The operation select code `cmd_op[2:0]` (R33). -/
abbrev OpCode := BitVec 3

/-- A temperature: the fault sentinel, or an exact rational number of degrees (R9). -/
inductive Temp where
  | fault
  | val (q : Rat)
  deriving DecidableEq, Repr

/-- The source's DecodedReading (R9). -/
structure Reading where
  tc : Temp
  cj : Temp
  flags : FaultSet
  deriving DecidableEq, Repr

/-- The error taxonomy of R90. A condition is reported, never raised (R91). -/
inductive Condition where
  | openCircuit
  | shortToGnd
  | shortToVcc
  | noDevice
  | outOfRange
  deriving DecidableEq, Repr

end Sys2Proof
end

