-- ==== Sys2Proof/Config.lean ====
section
/-! DEFINITION. The implementation parameters of spec/00_scope.md R6 and the free values. -/

namespace Sys2Proof.Config

/-- `TC_W`: width of the thermocouple field (R6). -/
def tcWidth : Nat := 14

/-- `CJ_W`: width of the cold-junction field (R6). -/
def cjWidth : Nat := 12

/-- `W`: the working width of sign extension. R6 admits any `W >= 14`; no result depends on it (R47).
DESIGN CHOICE (log entry 19). -/
def workingWidth : Nat := 32

/-- `TC_LSB`: 1/4 degree per count (R6, R48). -/
def tcLsb : Rat := mkRat 1 4

/-- `CJ_LSB`: 1/16 degree per count (R6, R49). -/
def cjLsb : Rat := mkRat 1 16

/-- `TOL`: the relative error every admissible `RND` keeps (R6, R40 (a)). -/
def tol : Rat := mkRat 1 1000000

/-- The source's DeviceConfig (R14, R100): a hardware peripheral, or three pins. -/
inductive DeviceConfig where
  | hardware (chipSelectPin peripheralHandle : Nat)
  | software (clockPin chipSelectPin dataPin : Nat)
  deriving DecidableEq, Repr, Inhabited

/-- `ACQ_VARIANT`: fixed at construction, free, and read by no operation (R14, U16; log entry 15). -/
opaque deviceConfig : DeviceConfig

/-- FREE VALUE (log entry 8): what rounding delivers for an exact result whose nearest multiple of the
last spacing is `2^1024`, no binary64 value. A function of the exact result, as `RND : Q -> Q` is. -/
opaque roundPastMax : Rat → Rat

end Sys2Proof.Config
end

