-- ==== Sys2Proof/Machine/Rational.lean ====
section
/-! DEFINITION. Exact rational arithmetic (spec/00_scope.md R7: non-integer quantities are exact rationals).
These are the operations of `Rat`, written over numerator and denominator so that they also evaluate by `decide`;
Laws/Rational.lean proves each equal to `Rat`'s own (log entry 20). -/

namespace Sys2Proof.Machine

/-- `a + b`. -/
def ratAdd (a b : Rat) : Rat := mkRat (a.num * b.den + b.num * a.den) (a.den * b.den)

/-- `a - b`. -/
def ratSub (a b : Rat) : Rat := mkRat (a.num * b.den - b.num * a.den) (a.den * b.den)

/-- `a * b`. -/
def ratMul (a b : Rat) : Rat := mkRat (a.num * b.num) (a.den * b.den)

/-- `|a|`. -/
def ratAbs (a : Rat) : Rat := mkRat a.num.natAbs a.den

/-- `-a`. -/
def ratNeg (a : Rat) : Rat := mkRat (-a.num) a.den

/-- The integer `n` as a rational. -/
def ratOfInt (n : Int) : Rat := mkRat n 1

/-- `2^k` for an integer exponent. -/
def pow2 (k : Int) : Rat :=
  if 0 ≤ k then mkRat (2 ^ k.toNat : Nat) 1 else mkRat 1 (2 ^ (-k).toNat)

/-- `floor(log2 q)` for `q > 0` (used by R40 (b)). -/
def floorLog2 (q : Rat) : Int :=
  let e : Int := (Nat.log2 q.num.toNat : Int) - (Nat.log2 q.den : Int)
  if pow2 e ≤ q then e else e - 1

/-- The integer nearest `x >= 0`, the even one when `x` is halfway (R40 (b)). -/
def nearestEven (x : Rat) : Nat :=
  let n := x.num.toNat / x.den
  let twiceRest := 2 * (x.num.toNat % x.den)
  if twiceRest < x.den then n
  else if x.den < twiceRest then n + 1
  else if n % 2 = 0 then n else n + 1

end Sys2Proof.Machine
end

