-- ==== Sys2Proof/Machine/Operands.lean ====
section
/-! DEFINITION. The frame: how it is assembled, its fields and their signed values (spec/20_memory.md R22;
spec/30_encoding.md R31, R32; spec/40_decode.md R46 to R49). -/

namespace Sys2Proof.Machine

/-- R22: the four bytes of one transaction, first byte most significant. -/
def frameOfBytes (b0 b1 b2 b3 : Byte) : Frame := b0 ++ b1 ++ b2 ++ b3

/-- One bit clocked in, most significant first. -/
def shiftIn (r : Frame) (b : Bool) : Frame := (r <<< 1) ||| (BitVec.ofBool b).setWidth 32

/-- R22: the frame of a transaction from the bits in the order they are clocked in. -/
def frameOfSerial (bits : List Bool) : Frame := bits.foldl shiftIn 0#32

/-- `tcf = (r >> 18) & 0x3FFF` (R32). -/
def tcField (r : Frame) : Nat := ((r >>> 18) &&& 0x3FFF#32).toNat

/-- `cjf = (r >> 4) & 0xFFF` (R32). -/
def cjField (r : Frame) : Nat := ((r >>> 4) &&& 0xFFF#32).toNat

/-- `ext(v, N, W)` of R47: OR in all the bits of the `W`-bit word above the field when its top bit is set. -/
def extend (v n w : Nat) : Nat :=
  if v.testBit (n - 1) then v ||| ((2 ^ w - 1) - (2 ^ n - 1)) else v

/-- A `w`-bit word read as two's complement (R47). -/
def readSigned (w u : Nat) : Int := if u < 2 ^ (w - 1) then (u : Int) else (u : Int) - 2 ^ w

/-- The source's generic sign extension of an `n`-bit field, in working width `w` (R47). -/
def signExtend (n w v : Nat) : Int := readSigned w (extend v n w)

/-- `tc_count = sext_14(tcf)` (R47). -/
def tcCount (r : Frame) : Int := signExtend Config.tcWidth Config.workingWidth (tcField r)

/-- `cj_count = sext_12(cjf)` (R47). -/
def cjCount (r : Frame) : Int := signExtend Config.cjWidth Config.workingWidth (cjField r)

/-- R48: the count times 1/4 degree, exact. -/
def tcDegrees (r : Frame) : Rat := ratMul (ratOfInt (tcCount r)) Config.tcLsb

/-- R49: the count times 1/16 degree, exact. -/
def cjDegrees (r : Frame) : Rat := ratMul (ratOfInt (cjCount r)) Config.cjLsb

end Sys2Proof.Machine
end

