-- ==== Sys2Proof/Machine/Flags.lean ====
section
/-! DEFINITION. The fault bits, the all-zero test and RDRAW's fault test (spec/40_decode.md R50 to R52;
spec/43_read_ops.md R85). -/

namespace Sys2Proof.Machine

/-- `faultBits = raw & 0x7`, at the positions of `rsp_flags` (R50, R41). -/
def faultBits (r : Frame) : FaultSet := (r &&& 0x7#32).setWidth 3

/-- `nodev = (r = 0)`, on all 32 bits, reserved bits included (R51, R52). -/
def noDevice (r : Frame) : Bool := r == 0#32

/-- `RAW_FAULT_PRED`: the frames RDRAW returns as 0 (R85, D10; log entry 14). -/
def rawFault (r : Frame) : Bool := faultBits r != 0#3

/-- The sensor conditions R90 reads off bits 0 to 2, all that hold at once (R94). -/
def sensorConditions (r : Frame) : List Condition :=
  (if r.getLsbD 0 then [.openCircuit] else []) ++
  (if r.getLsbD 1 then [.shortToGnd] else []) ++
  (if r.getLsbD 2 then [.shortToVcc] else [])

/-- The NO_DEVICE condition of R90. -/
def absenceConditions (r : Frame) : List Condition := if noDevice r then [.noDevice] else []

end Sys2Proof.Machine
end

