-- ==== Sys2Proof/Machine/Binary64.lean ====
section
/-! DEFINITION. The temperature encoding of the ports (spec/30_encoding.md R39) and the result rounding `RND`
(R40). The binary64 layout is the spec's G1, supplied there from general knowledge (log entry 22). -/

namespace Sys2Proof.Machine

/-- `s = w[63]`. -/
def signBit (w : Word64) : Bool := w.getLsbD 63

/-- `e = w[62:52]`. -/
def exponentField (w : Word64) : Nat := (w.extractLsb' 52 11).toNat

/-- `f = w[51:0]`. -/
def fractionField (w : Word64) : Nat := (w.extractLsb' 0 52).toNat

/-- The word encodes an infinity (R39: not admitted). -/
def isInfinity (w : Word64) : Bool := exponentField w == 2047 && fractionField w == 0

/-- `(-1)^s * n * 2^k`. -/
def signedScaled (s : Bool) (n : Nat) (k : Int) : Rat :=
  ratMul (ratOfInt (if s then -(n : Int) else n)) (pow2 k)

/-- `dec` of R39; `none` for an infinity, which R73 does not admittedOperation. -/
def dec (w : Word64) : Option Temp :=
  if exponentField w = 2047 then
    if fractionField w = 0 then none else some .fault
  else if exponentField w = 0 then
    if fractionField w = 0 then some (.val 0)
    else some (.val (signedScaled (signBit w) (fractionField w) (-1074)))
  else
    some (.val (signedScaled (signBit w) (2 ^ 52 + fractionField w) ((exponentField w : Int) - 1075)))

/-- The one NaN word TCFD delivers (R39). -/
def canonicalNaN : Word64 := 0x7FF8000000000000#64

/-- A word from its sign, exponent field and fraction field. -/
def assemble (s : Bool) (e f : Nat) : Word64 :=
  BitVec.ofBool s ++ BitVec.ofNat 11 e ++ BitVec.ofNat 52 f

/-- The exponent of the binary64 spacing around `m > 0`: `max(floor(log2 m), -1022)` (R40 (b)). -/
def spacingExponent (m : Rat) : Int := max (floorLog2 m) (-1022)

/-- `enc` of R39; `none` for a rational that is no binary64 value, where `enc` is not defined. -/
def enc : Temp → Option Word64
  | .fault => some canonicalNaN
  | .val q =>
    if q = 0 then some 0#64
    else
      let e := spacingExponent (ratAbs q)
      let n := ratMul (ratAbs q) (pow2 (52 - e))
      if n.den = 1 ∧ e ≤ 1023 then
        if n.num.toNat < 2 ^ 52 then some (assemble (decide (q < 0)) 0 n.num.toNat)
        else some (assemble (decide (q < 0)) (e + 1023).toNat (n.num.toNat - 2 ^ 52))
      else none

/-- `q` is a finite binary64 value. -/
def isBinary64 (q : Rat) : Bool := (enc (.val q)).isSome

/-- R40 (b): one rounding to nearest, ties to even, with unbounded exponent. -/
def roundNearest (q : Rat) : Rat :=
  if q = 0 then 0
  else
    let e := spacingExponent (ratAbs q)
    let n := nearestEven (ratMul (ratAbs q) (pow2 (52 - e)))
    signedScaled (decide (q < 0)) n (e - 52)

/-- `|q| >= 2^1024`: beyond every finite binary64 value. -/
def atLeast2Pow1024 (q : Rat) : Bool := q ≠ 0 && decide (1024 ≤ floorLog2 (ratAbs q))

/-- The largest finite binary64 magnitude, with the sign of `q`. -/
def maxFinite (q : Rat) : Rat := signedScaled (decide (q < 0)) (2 ^ 53 - 1) 971

/-- `v` keeps the contract R40 (a) for `q`: a finite binary64 value within `TOL`. -/
def keepsContract (v q : Rat) : Bool :=
  isBinary64 v && decide (ratAbs (ratSub v q) ≤ ratMul Config.tol (ratAbs q))

/-- The free value of log entry 8, held to the contract R40 (a): whatever `Config.roundPastMax` gives
where that keeps the contract, and the largest finite value (which does) where it does not. -/
def roundPastMax (q : Rat) : Rat :=
  if keepsContract (Config.roundPastMax q) q then Config.roundPastMax q else maxFinite q

/-- `RND` (R40): the default (b); where (b) reaches `2^1024`, which no word encodes and R40 says does not
occur, a free value under (a) (log entry 8). -/
def rnd (q : Rat) : Rat :=
  if atLeast2Pow1024 (roundNearest q) then roundPastMax q else roundNearest q

end Sys2Proof.Machine
end

