-- ==== Sys2Proof/Machine/Engine.lean ====
section
/-! DEFINITION. The linearisation engine as a function of the two temperatures (spec/41_linearize.md R61 to R73).
Every literal is the exact rational of the spec's own column. -/

namespace Sys2Proof.Machine

/-- R62: `(t - c) * 0.041276` millivolts. -/
def vtc (c t : Rat) : Rat := ratMul (ratSub t c) (mkRat 41276 1000000)

/-- R63: `c * 0.04073` millivolts. -/
def vcj (c : Rat) : Rat := ratMul c (mkRat 4073 100000)

/-- R64: `Vtc + Vcj`. -/
def vtotal (c t : Rat) : Rat := ratAdd (vtc c t) (vcj c)

/-- R66: table NEG, d0 to d8. -/
def tableNeg : List Rat :=
  [0, mkRat 25173462 (10 ^ 6), mkRat (-11662878) (10 ^ 7), mkRat (-10833638) (10 ^ 7),
   mkRat (-8977354) (10 ^ 7), mkRat (-37342377) (10 ^ 8), mkRat (-86632643) (10 ^ 9),
   mkRat (-10450598) (10 ^ 9), mkRat (-51920577) (10 ^ 11)]

/-- R67: table MID, d0 to d9, all ten terms (C2, D9). -/
def tableMid : List Rat :=
  [0, mkRat 2508355 (10 ^ 5), mkRat 7860106 (10 ^ 8), mkRat (-2503131) (10 ^ 7),
   mkRat 831527 (10 ^ 7), mkRat (-1228034) (10 ^ 8), mkRat 9804036 (10 ^ 10),
   mkRat (-441303) (10 ^ 10), mkRat 1057734 (10 ^ 12), mkRat (-1052755) (10 ^ 14)]

/-- R68: table HI, d0 to d6. -/
def tableHi : List Rat :=
  [mkRat (-1318058) (10 ^ 4), mkRat 4830222 (10 ^ 5), mkRat (-1646031) (10 ^ 6),
   mkRat 5464731 (10 ^ 8), mkRat (-9650715) (10 ^ 10), mkRat 8802193 (10 ^ 12),
   mkRat (-311081) (10 ^ 13)]

/-- R65: the table for a total voltage; `none` is out of range (R70). There is no lower bound (R72). -/
def selectTable (v : Rat) : Option (List Rat) :=
  if v < 0 then some tableNeg
  else if v < mkRat 20644 1000 then some tableMid
  else if v < mkRat 54886 1000 then some tableHi
  else none

/-- R69: the polynomial with these coefficients at `v`, exact, in Horner's form. -/
def evalPoly : List Rat → Rat → Rat
  | [], _ => 0
  | d :: ds, v => ratAdd d (ratMul v (evalPoly ds v))

/-- The exact corrected temperature for a total voltage, `none` out of range (R65 to R70). -/
def corrected (v : Rat) : Option Rat := (selectTable v).map fun d => evalPoly d v

/-- LINEARIZE on temperatures with result rounding `R` (R60). The outer `none` is a pair R73 does not admittedOperation:
an exact result at or beyond `2^1024` in magnitude. -/
def linearizeTemp (R : Rat → Rat) : Temp → Temp → Option Temp
  | .fault, _ => some .fault
  | .val _, .fault => some .fault
  | .val c, .val t =>
    match corrected (vtotal c t) with
    | none => some .fault
    | some q => if atLeast2Pow1024 q then none else some (.val (R q))

/-- R73: neither operand word is an infinity. -/
def operandsFinite (a b : Word64) : Bool := !isInfinity a && !isInfinity b

/-- R73: the exact result of the operand words, where they have one, is below `2^1024` in magnitude. -/
def resultFits (a b : Word64) : Bool :=
  match dec a, dec b with
  | some cj, some tc => (linearizeTemp rnd cj tc).isSome
  | _, _ => true

/-- The OUT_OF_RANGE condition of R90: both operands valid and `Vtotal >= 54.886`. -/
def rangeConditions (a b : Word64) : List Condition :=
  match dec a, dec b with
  | some (.val c), some (.val t) => if (selectTable (vtotal c t)).isNone then [.outOfRange] else []
  | _, _ => []

end Sys2Proof.Machine
end

