-- ==== Sys2Proof/Syntax.lean ====
section
/-! DEFINITION. The command format and the operations (spec/30_encoding.md R30, R33, R34;
spec/opcode_table.json). -/

namespace Sys2Proof

/-- A command as the host presents it: `cmd_op[2:0]`, `cmd_a[63:0]`, `cmd_b[63:0]` (R30, R34). -/
structure Command where
  op : OpCode
  a : Word64
  b : Word64
  deriving DecidableEq, Repr

/-- The five operations that fetch one frame (spec/43_read_ops.md R80). -/
inductive ReadOp where
  | rdtc
  | rdcj
  | rdf
  | rdflt
  | rdraw
  deriving DecidableEq, Repr

/-- The model's command type: exactly the seven operations of R33 (R44), with the operands R34 gives them. Only
these are ever accepted (R37). -/
inductive Operation where
  /-- R45: decode the frame `r`. -/
  | decode (r : Frame)
  /-- R81 to R85: fetch one frame and return one item of it. -/
  | rdtc
  | rdcj
  | rdf
  | rdflt
  | rdraw
  /-- R60: linearise; the operand words are `enc(internalCelsius)`, `enc(thermocoupleCelsius)`. -/
  | linearize (cj tc : Word64)
  deriving DecidableEq, Repr

/-- One constructor per ROW OF THE OPERATION TABLE (spec/opcode_table.json): the seven operations, and the row of
the reserved code, which is no operation (R37; log entry 11). -/
inductive Instr where
  /-- code 0, R45: decode the frame `r`. -/
  | decode (r : Frame)
  /-- code 1, R81: fetch, thermocouple temperature in Celsius. -/
  | rdtc
  /-- code 2, R82: fetch, cold-junction temperature in Celsius. -/
  | rdcj
  /-- code 3, R83: fetch, thermocouple temperature in Fahrenheit. -/
  | rdf
  /-- code 4, R84: fetch, fault flags. -/
  | rdflt
  /-- code 5, R85: fetch, raw frame (fault frames as 0). -/
  | rdraw
  /-- code 6, R60: linearise; the operand words are `enc(internalCelsius)`, `enc(thermocoupleCelsius)`. -/
  | linearize (cj tc : Word64)
  /-- code 7, R37: selects no operation. -/
  | reserved
  deriving DecidableEq, Repr

end Sys2Proof
end

