-- ==== Sys2Proof/WellFormed.lean ====
section
/-! DEFINITION. The admitted commands (spec/30_encoding.md R37; spec/41_linearize.md R73): every command but the
reserved code and the LINEARIZE operand pairs the model refuses. -/

namespace Sys2Proof

/-- The command is admitted: it owes a response (R91). -/
def Instr.wellFormed : Instr → Bool
  | .decode _ => true
  | .rdtc => true
  | .rdcj => true
  | .rdf => true
  | .rdflt => true
  | .rdraw => true
  | .linearize cj tc => Machine.operandsFinite cj tc && Machine.resultFits cj tc
  | .reserved => false

end Sys2Proof
end

