-- ==== Sys2Proof/Decode.lean ====
section
/-! DEFINITION. Command to operation and back (spec/30_encoding.md R33, R34). Decoding is total: the eight codes
cover the three bits, and code 7 decodes to the operation the machine refuses (R37). -/

namespace Sys2Proof

/-- The operation a command selects, with its operands (R33, R34). Ignored operand bits are dropped. -/
def decodeCommand (c : Command) : Instr :=
  match c.op.toNat with
  | 0 => .decode (c.a.setWidth 32)
  | 1 => .rdtc
  | 2 => .rdcj
  | 3 => .rdf
  | 4 => .rdflt
  | 5 => .rdraw
  | 6 => .linearize c.a c.b
  | _ => .reserved

/-- The operation code of R33. -/
def Instr.opcode : Instr → OpCode
  | .decode _ => 0#3
  | .rdtc => 1#3
  | .rdcj => 2#3
  | .rdf => 3#3
  | .rdflt => 4#3
  | .rdraw => 5#3
  | .linearize _ _ => 6#3
  | .reserved => 7#3

/-- The command of an operation: R33's code, R34's operand words, ignored words zero. -/
def encode : Instr → Command
  | .decode r => ⟨0#3, r.setWidth 64, 0#64⟩
  | .linearize cj tc => ⟨6#3, cj, tc⟩
  | .rdtc => ⟨1#3, 0#64, 0#64⟩
  | .rdcj => ⟨2#3, 0#64, 0#64⟩
  | .rdf => ⟨3#3, 0#64, 0#64⟩
  | .rdflt => ⟨4#3, 0#64, 0#64⟩
  | .rdraw => ⟨5#3, 0#64, 0#64⟩
  | .reserved => ⟨7#3, 0#64, 0#64⟩

/-- The table row of an operation. -/
def Operation.instr : Operation → Instr
  | .decode r => .decode r
  | .rdtc => .rdtc
  | .rdcj => .rdcj
  | .rdf => .rdf
  | .rdflt => .rdflt
  | .rdraw => .rdraw
  | .linearize cj tc => .linearize cj tc

/-- The operation of a table row; the reserved code has none (R37). -/
def Instr.operation : Instr → Option Operation
  | .decode r => some (.decode r)
  | .rdtc => some .rdtc
  | .rdcj => some .rdcj
  | .rdf => some .rdf
  | .rdflt => some .rdflt
  | .rdraw => some .rdraw
  | .linearize cj tc => some (.linearize cj tc)
  | .reserved => none

/-- The operation TCFD accepts for a command: the one it selects, if the command is admitted (R37, R73). -/
def admittedOperation (c : Command) : Option Operation :=
  if (decodeCommand c).wellFormed then (decodeCommand c).operation else none

/-- The operation a pending fetch belongs to (R17: `WaitFetch(op)`). -/
def ReadOp.instr : ReadOp → Instr
  | .rdtc => .rdtc
  | .rdcj => .rdcj
  | .rdf => .rdf
  | .rdflt => .rdflt
  | .rdraw => .rdraw

/-- Why a table word is no command. -/
inductive DecodeReject where
  /-- a bit is set beyond the 136 bits of a command. -/
  | beyondCommand
  deriving DecidableEq, Repr

/-- The bits of a command as one number (log entry 12): `op` in bits 2 to 0 of the first byte (bits 7 to 3 of
that byte are no wire and are ignored, as the table's mask `0x7` says), `a` in bits 71 to 8, `b` in bits
135 to 72. -/
def commandOfBits (nbits w : Nat) : Except DecodeReject Command :=
  let v := w % 2 ^ nbits
  if v < 2 ^ 136 then
    .ok ⟨BitVec.ofNat 3 v, BitVec.ofNat 64 (v >>> 8), BitVec.ofNat 64 (v >>> 72)⟩
  else .error .beyondCommand

/-- A command as one number, in the same numbering. -/
def bitsOfCommand (c : Command) : Nat := c.op.toNat + c.a.toNat * 2 ^ 8 + c.b.toNat * 2 ^ 72

/-- What the decoder reads from a table word. -/
def decodeTableWord (nbits w : Nat) : Option Instr :=
  match commandOfBits nbits w with
  | .ok c => some (decodeCommand c)
  | .error _ => none

end Sys2Proof
end

