-- ==== Sys2Proof/Machine/State.lean ====
section
/-! DEFINITION. The state of the machine and the reasons a step can stop (spec/10_state.md R17, R19;
spec/30_encoding.md R34; spec/70_reset_and_hazards.md R105, R116). -/

namespace Sys2Proof.Machine

/-- A response, each operation with its own type; components R34 calls unspecified have no place
(log entry 18). -/
inductive Response where
  /-- DECODE: the reading and `nodev`. -/
  | reading (rd : Reading) (nodev : Bool)
  /-- RDTC, RDCJ, RDF, LINEARIZE. -/
  | temp (t : Temp)
  /-- RDFLT. -/
  | flags (f : FaultSet)
  /-- RDRAW. -/
  | word (r : Frame)
  deriving DecidableEq, Repr

/-- The in-flight record of R17. -/
inductive Phase where
  | idle
  /-- a command accepted, not yet responded: `Busy(op, a, b)`, its operand bits R34 ignores dropped
  (log entry 11). -/
  | busy (o : Operation)
  /-- a read operation has called `Fetch()` and is not yet answered. -/
  | waitFetch (op : ReadOp)
  deriving DecidableEq, Repr

/-- A command the host presents `wait` steps after the one before it was accepted (the first one: after now),
whatever TCFD does meanwhile, and then holds until it is accepted (R26, R116; log entry 2). -/
structure Presentation where
  wait : Nat
  cmd : Command
  deriving DecidableEq, Repr

/-- What the FrameAcquirer does with one request (R21, R29). -/
inductive FetchAnswer where
  /-- the frame `r`, after `delay` further steps in `WaitFetch`. -/
  | answer (delay : Nat) (r : Frame)
  /-- no answer, ever. -/
  | never
  deriving DecidableEq, Repr

/-- TCFD's own state (`phase`, `rsp`) and the coming moves of its three neighbours. -/
structure State where
  /-- R17: the in-flight record. -/
  phase : Phase
  /-- R34: the response channel in this step; `none` is `rsp_valid = 0`. No operation reads it (R11). -/
  rsp : Option Response
  /-- the host's coming commands, in order. -/
  host : List Presentation
  /-- the FrameAcquirer's answers to the coming requests, one entry per request; past the end, none comes. -/
  acquirer : List FetchAnswer
  /-- the reset input at the coming steps; past the end, 0. -/
  rst : List Bool
  deriving DecidableEq, Repr

/-- TCFD never traps (R91) and the spec treats nothing as a fault (spec/93_implementation_defined.md): the
machine has no fault reason, so none can be raised. Safe: no step ends here. -/
inductive Fault where
  deriving DecidableEq, Repr

/-- Why the model declines to give a command a meaning (R91). -/
inductive Refusal where
  /-- raised by `exec` alone, for an operation without a meaning; none is left. Safe. -/
  | notModelled (mnemonic : String)
  /-- raised by RESERVED, in the step that would accept it (R37, U1). Safe: no claim about such a command is provable. -/
  | reservedOperationCode
  /-- raised by LINEARIZE on an infinite operand word, in the step that would accept it (R73, U2). Safe. -/
  | infiniteOperand
  /-- raised by LINEARIZE, in the step that would accept it, when the exact result is at or beyond `2^1024` in
  magnitude (R73, U3). Safe. -/
  | resultBeyondBinary64
  deriving DecidableEq, Repr

/-- After reset (R19, R105): `Idle`, no response; and no neighbour has a move pending (log entry 16). -/
def State.reset : State := { phase := .idle, rsp := none, host := [], acquirer := [], rst := [] }

end Sys2Proof.Machine
end

