-- ==== Sys2Proof/Machine/Ports.lean ====
section
/-! DEFINITION. The ports as functions of the state (spec/30_encoding.md R34, R39, R41). An optional port
is `none` where R34 says unspecified, or while no response is delivered (U6). -/

namespace Sys2Proof.Machine

/-- `cmd_ready`: 1 exactly in `Idle` (R34). -/
def State.cmdReady (s : State) : Bool := s.phase == .idle

/-- `acq_req`: raised on entering `WaitFetch`, until the answer (R34). -/
def State.acqReq (s : State) : Bool :=
  match s.phase with
  | .idle => false
  | .busy _ => false
  | .waitFetch _ => true

/-- `cmd_op`, `cmd_a`, `cmd_b` while `cmd_valid` is 1: the command the host presents now and holds (R26, R34). -/
def State.cmdPort (s : State) : Option Command :=
  match s.host with
  | ⟨0, c⟩ :: _ => some c
  | ⟨_ + 1, _⟩ :: _ => none
  | [] => none

/-- `cmd_valid` (R34). -/
def State.cmdValid (s : State) : Bool := s.cmdPort.isSome

/-- `acq_data` while `acq_valid` is 1: the FrameAcquirer answers a pending request only (R34, U14). -/
def State.acqData (s : State) : Option Frame :=
  match s.phase, s.acquirer with
  | .waitFetch _, .answer 0 r :: _ => some r
  | _, _ => none

/-- `acq_valid` (R34). -/
def State.acqValid (s : State) : Bool := s.acqData.isSome

/-- `rsp_valid` (R34). -/
def State.rspValid (s : State) : Bool := s.rsp.isSome

/-- `rsp_x` of a response (R34). -/
def Response.x : Response → Option Word64
  | .reading rd _ => enc rd.tc
  | .temp t => enc t
  | .flags _ => none
  | .word r => some (r.setWidth 64)

/-- `rsp_y` of a response (R34). -/
def Response.y : Response → Option Word64
  | .reading rd _ => enc rd.cj
  | .temp _ => none
  | .flags _ => none
  | .word _ => none

/-- `rsp_flags` of a response (R34, R41). -/
def Response.flagBits : Response → Option FaultSet
  | .reading rd _ => some rd.flags
  | .temp _ => none
  | .flags f => some f
  | .word _ => none

/-- `rsp_nodev` of a response (R34, R52). -/
def Response.nodevBit : Response → Option Bool
  | .reading _ n => some n
  | .temp _ => none
  | .flags _ => none
  | .word _ => none

/-- `rsp_x[63:0]`. -/
def State.rspX (s : State) : Option Word64 := s.rsp.bind Response.x

/-- `rsp_y[63:0]`. -/
def State.rspY (s : State) : Option Word64 := s.rsp.bind Response.y

/-- `rsp_flags[2:0]`. -/
def State.rspFlags (s : State) : Option FaultSet := s.rsp.bind Response.flagBits

/-- `rsp_nodev`. -/
def State.rspNodev (s : State) : Option Bool := s.rsp.bind Response.nodevBit

end Sys2Proof.Machine
end

