-- ==== Sys2Proof/Machine/Ops.lean ====
section
/-! DEFINITION. The moves of the phase machine, shared by all operations (spec/10_state.md R17;
spec/20_memory.md R21, R26, R29; spec/70_reset_and_hazards.md R105). TCFD has no trap entry (spec/60_exceptions.md
R95): an operation that meets a condition completes by `respond` like any other. -/

namespace Sys2Proof.Machine

/-- Deliver the response and return to `Idle` (R17, R26). -/
def respond (r : Response) (s : State) : State := { s with phase := .idle, rsp := some r }

/-- A step that delivers nothing: `rsp_valid` is 1 for one step only (R34). -/
def quiet (s : State) : State := { s with rsp := none }

/-- `Busy(op,_,_) -> WaitFetch(op)`: raise the one request of a read operation (R17, R80). -/
def requestFrame (op : ReadOp) (s : State) : State := { s with phase := .waitFetch op, rsp := none }

/-- One step of `Fetch()` while a request is pending: the frame if the FrameAcquirer answers in this step
(R21, R29). -/
def fetch (s : State) : Option Frame × State :=
  match s.acquirer with
  | .answer 0 r :: rest => (some r, { s with acquirer := rest })
  | .answer (d + 1) r :: rest => (none, { s with acquirer := .answer d r :: rest })
  | .never :: _ => (none, s)
  | [] => (none, s)

/-- The template of R80: request once, wait as long as it takes, respond with `f` of the one frame. -/
def readOperation (op : ReadOp) (f : Frame → Response) (s : State) :
    Host.Outcome State Fault Refusal :=
  if s.phase = .waitFetch op then
    match fetch s with
    | (some r, s') => .next (respond (f r) s')
    | (none, s') => .next (quiet s')
  else .next (requestFrame op s)

/-- The host's own move, made in every step whatever TCFD does and whether or not `rst` is 1 (R116): the command it
will present next comes one step nearer, and one it presents is held (R26). -/
def hostMove : List Presentation → List Presentation
  | ⟨0, c⟩ :: rest => ⟨0, c⟩ :: rest
  | ⟨d + 1, c⟩ :: rest => ⟨d, c⟩ :: rest
  | [] => []

/-- The command presented goes into flight as `o`, and the host turns to its next one (R17, R26). -/
def takeCommand (o : Operation) (s : State) : State :=
  { s with phase := .busy o, rsp := none, host := s.host.tail }

/-- In `Idle`: accept the command on the port, if there is one (R17, R26). A command that is not
admitted is not accepted: `ex` refuses it in this very step, so no later reset can hide it (R37, R73). -/
def acceptCommand (ex : Instr → State → Host.Outcome State Fault Refusal) (port : Option Command) (s : State) :
    Host.Outcome State Fault Refusal :=
  match port with
  | some c =>
    match admittedOperation c with
    | some o => .next (takeCommand o s)
    | none => ex (decodeCommand c) s
  | none => .next (quiet s)

/-- The answers still to come when the fetch pending in phase `p` is abandoned: its own frame, if it ever
comes, is discarded and goes to no later command (R105; log entry 5). -/
def abandonFetch (p : Phase) (answers : List FetchAnswer) : List FetchAnswer :=
  match p with
  | .idle => answers
  | .busy _ => answers
  | .waitFetch _ => answers.tail

/-- `rst = 1` (R105): any phase to `Idle`, no response, nothing accepted. -/
def resetMove (s : State) : State :=
  { s with phase := .idle, rsp := none, acquirer := abandonFetch s.phase s.acquirer }

/-- One step with `rst = 0`, given what executing an operation does and what is on the command port. -/
def clockMove (ex : Instr → State → Host.Outcome State Fault Refusal) (port : Option Command) (s : State) :
    Host.Outcome State Fault Refusal :=
  match s.phase with
  | .idle => acceptCommand ex port s
  | .busy o => ex o.instr s
  | .waitFetch op => ex op.instr s

/-- `rst` at this step is 1. -/
def resetNow (s : State) : Bool := s.rst.headD false

/-- The inputs move on by one step: the reset input and the host (R116). -/
def advanceInputs (s : State) : State := { s with rst := s.rst.tail, host := hostMove s.host }

/-- The reset input with a 0 at the next step. -/
def holdReset (rst : List Bool) : List Bool := if rst.headD false then false :: rst.tail else rst

/-- A command where the next step executes it, with `rst = 0` there: an admitted one in flight, as accepting it
leaves it; another one presented in `Idle`, where the next step refuses it (log entry 13). -/
def placeCommand (c : Command) (s : State) : State :=
  match admittedOperation c with
  | some o => { s with phase := .busy o, rst := holdReset s.rst }
  | none => { s with phase := .idle, host := ⟨0, c⟩ :: s.host, rst := holdReset s.rst }

end Sys2Proof.Machine
end

