-- ==== Sys2Proof/Machine/FrameDecoder.lean ====
section
/-! DEFINITION. DECODE (spec/40_decode.md R45). -/

namespace Sys2Proof.Machine

/-- The reading of a frame: the two values, then the two overrides (R45, R50, R51). -/
def decodeFrame (r : Frame) : Reading :=
  { tc := if noDevice r then .fault else if faultBits r ≠ 0#3 then .fault else .val (tcDegrees r)
    cj := if noDevice r then .fault else .val (cjDegrees r)
    flags := faultBits r }

/-- DECODE, code 0 (R45). -/
def execDecode (r : Frame) (s : State) : Host.Outcome State Fault Refusal :=
  .next (respond (.reading (decodeFrame r) (noDevice r)) s)

end Sys2Proof.Machine
end

