-- ==== Sys2Proof/Machine/Linearize.lean ====
section
/-! DEFINITION. LINEARIZE (spec/41_linearize.md R60) and the reserved code (spec/30_encoding.md R37). -/

namespace Sys2Proof.Machine

/-- LINEARIZE, code 6 (R60). An infinite operand word is refused before anything else, also beside a `Fault`
(R73; log entry 10). -/
def execLinearize (a b : Word64) (s : State) : Host.Outcome State Fault Refusal :=
  match dec a, dec b with
  | some cj, some tc =>
    match linearizeTemp rnd cj tc with
    | some t => .next (respond (.temp t) s)
    | none => .refused .resultBeyondBinary64
  | _, _ => .refused .infiniteOperand

/-- Code 7 selects no operation: the model refuses it (R37, U1). -/
def execReserved (_s : State) : Host.Outcome State Fault Refusal := .refused .reservedOperationCode

end Sys2Proof.Machine
end

