-- ==== Sys2Proof/Machine/Convert.lean ====
section
/-! DEFINITION. Celsius to Fahrenheit (spec/42_convert.md R75 to R77). -/

namespace Sys2Proof.Machine

/-- `c * 9/5 + 32`, exact (R77). -/
def fahrenheit (c : Rat) : Rat := ratAdd (ratMul c (mkRat 9 5)) (ratOfInt 32)

/-- `CtoF` with result rounding `R` (R75, R76). -/
def ctoF (R : Rat → Rat) : Temp → Temp
  | .fault => .fault
  | .val c => .val (R (fahrenheit c))

end Sys2Proof.Machine
end

