-- ==== Sys2Proof/Machine/ReadOps.lean ====
section
/-! DEFINITION. The five read operations (spec/43_read_ops.md R80 to R85): each is the template
`readOperation` with the item it returns from its one frame. -/

namespace Sys2Proof.Machine

/-- R81: the thermocouple temperature of the frame. -/
def rdtcResponse (r : Frame) : Response := .temp (decodeFrame r).tc

/-- R82: the cold-junction temperature of the frame. -/
def rdcjResponse (r : Frame) : Response := .temp (decodeFrame r).cj

/-- R83: the thermocouple temperature of the frame, in Fahrenheit. -/
def rdfResponse (r : Frame) : Response := .temp (ctoF rnd (decodeFrame r).tc)

/-- R84: the fault bits of the frame. -/
def rdfltResponse (r : Frame) : Response := .flags (faultBits r)

/-- R85: the frame itself, or 0 for a fault frame. -/
def rdrawResponse (r : Frame) : Response := .word (if rawFault r then 0#32 else r)

/-- RDTC, code 1 (R81). -/
def execRdtc (s : State) : Host.Outcome State Fault Refusal := readOperation .rdtc rdtcResponse s

/-- RDCJ, code 2 (R82). -/
def execRdcj (s : State) : Host.Outcome State Fault Refusal := readOperation .rdcj rdcjResponse s

/-- RDF, code 3 (R83). -/
def execRdf (s : State) : Host.Outcome State Fault Refusal := readOperation .rdf rdfResponse s

/-- RDFLT, code 4 (R84). -/
def execRdflt (s : State) : Host.Outcome State Fault Refusal := readOperation .rdflt rdfltResponse s

/-- RDRAW, code 5 (R85). -/
def execRdraw (s : State) : Host.Outcome State Fault Refusal := readOperation .rdraw rdrawResponse s

end Sys2Proof.Machine
end

