-- ==== Sys2Proof/Machine/Dispatch.lean ====
section
/-! DEFINITION. One arm per operation of the table. -/

namespace Sys2Proof.Machine

def exec (i : Instr) (s : State) : Host.Outcome State Fault Refusal :=
  match i with
  | .decode r => Sys2Proof.Machine.execDecode r s
  | .rdtc => Sys2Proof.Machine.execRdtc s
  | .rdcj => Sys2Proof.Machine.execRdcj s
  | .rdf => Sys2Proof.Machine.execRdf s
  | .rdflt => Sys2Proof.Machine.execRdflt s
  | .rdraw => Sys2Proof.Machine.execRdraw s
  | .linearize cj tc => Sys2Proof.Machine.execLinearize cj tc s
  | .reserved => Sys2Proof.Machine.execReserved s

end Sys2Proof.Machine
end

