-- ==== Sys2Proof/Machine/Step.lean ====
section
/-! DEFINITION. One step of the machine (spec/10_state.md R17; spec/70_reset_and_hazards.md R105). -/

namespace Sys2Proof.Machine

/-- Reset if `rst` is 1 at this step, else the phase machine's own move, with the command port as it is at this
step. -/
def step (s : State) : Host.Outcome State Fault Refusal :=
  if resetNow s then .next (resetMove (advanceInputs s)) else clockMove exec s.cmdPort (advanceInputs s)

/-- `s` with the command of table word `w` placed, so that the very next step executes it
(log entry 13). -/
def State.withFetchWord (s : State) (nbits w : Nat) : State :=
  match commandOfBits nbits w with
  | .ok c => placeCommand c s
  | .error _ => s

end Sys2Proof.Machine
end

