-- ==== Sys2Proof/Machine/Reports.lean ====
section
/-! DEFINITION. Which conditions of the taxonomy an operation reports (spec/60_exceptions.md R90, R94). A report
changes no state and no control flow (spec/00_scope.md R8): it names what explains the response. -/

namespace Sys2Proof.Machine

/-- The conditions operation `i` reports; `r` is the frame its fetch returned (not looked at by DECODE and
LINEARIZE, which have operands). R81 to R85 say which of them each read operation reports; RDRAW reports none by
name (log entry 23). -/
def reported (i : Instr) (r : Frame) : List Condition :=
  match i with
  | .decode q => sensorConditions q ++ absenceConditions q
  | .rdtc => sensorConditions r ++ absenceConditions r
  | .rdcj => absenceConditions r
  | .rdf => sensorConditions r ++ absenceConditions r
  | .rdflt => sensorConditions r
  | .rdraw => []
  | .linearize a b => rangeConditions a b
  | .reserved => []

end Sys2Proof.Machine
end

