-- ==== Sys2Proof/Safety.lean ====
section
/-! DEFINITION. What claims about the machine are said in: legal states, runs and their observation, the
transaction-level meaning of a command list (spec/70_reset_and_hazards.md R117; spec/10_state.md R18), and the
contract a result rounding keeps (spec/30_encoding.md R40 (a)). -/

namespace Sys2Proof.Machine

/-- A response TCFD may deliver: every temperature is one a port can carry, a reading is one of the three rows
of R53, and a raw word is never a fault frame (R85). -/
def Response.legal : Response → Bool
  | .reading rd n =>
    (enc rd.tc).isSome && (enc rd.cj).isSome && (n == (rd.cj == .fault)) &&
      ((rd.tc == .fault) == (n || rd.flags != 0#3)) && (!n || rd.flags == 0#3)
  | .temp t => (enc t).isSome
  | .flags _ => true
  | .word r => !rawFault r

/-- What may stand on the response port in phase `p`: a response is emitted on the move to `Idle` (R17), and it
is legal. -/
def legalPort (p : Phase) : Option Response → Bool
  | none => true
  | some r => p == .idle && r.legal

/-- A command in flight is an admitted one (R37, R73). -/
def Phase.admitted : Phase → Bool
  | .idle => true
  | .busy o => o.instr.wellFormed
  | .waitFetch _ => true

/-- The state invariant. -/
def State.legal (s : State) : Bool := s.phase.admitted && legalPort s.phase s.rsp

/-- `n` steps and the responses delivered in them, in order (the observation of R117); `none` if the machine
refuses on the way. -/
def runN : Nat → State → Option (List Response × State)
  | 0, s => some ([], s)
  | n + 1, s =>
    match step s with
    | .next t => (runN n t).map fun p => (t.rsp.toList ++ p.1, p.2)
    | .fault _ => none
    | .refused _ => none

/-- The operation performs a fetch (R80). -/
def fetches : Instr → Bool
  | .decode _ => false
  | .rdtc => true
  | .rdcj => true
  | .rdf => true
  | .rdflt => true
  | .rdraw => true
  | .linearize _ _ => false
  | .reserved => false

/-- R18: the response to a command as a function of its operands, or of the one frame `r` fetched for it;
`none` for a command that is not admitted. -/
def responseOf (i : Instr) (r : Frame) : Option Response :=
  match i with
  | .decode q => some (.reading (decodeFrame q) (noDevice q))
  | .rdtc => some (rdtcResponse r)
  | .rdcj => some (rdcjResponse r)
  | .rdf => some (rdfResponse r)
  | .rdflt => some (rdfltResponse r)
  | .rdraw => some (rdrawResponse r)
  | .linearize a b =>
    match dec a, dec b with
    | some cj, some tc => (linearizeTemp rnd cj tc).map .temp
    | _, _ => none
  | .reserved => none

/-- The responses to a command list, one frame for each read operation in it (R117); `none` when a command is
not admitted or the frames run out. -/
def responsesTo : List Instr → List Frame → Option (List Response)
  | [], _ => some []
  | i :: is, fs =>
    if fetches i then
      match fs with
      | [] => none
      | r :: rest => (responseOf i r).bind fun x => (responsesTo is rest).map (x :: ·)
    else (responseOf i 0#32).bind fun x => (responsesTo is fs).map (x :: ·)

/-- The operations of the commands the host still presents. -/
def operationsOf (h : List Presentation) : List Instr := h.map fun p => decodeCommand p.cmd

/-- The frames the FrameAcquirer answers with, up to the first request it never answers. -/
def framesOf : List FetchAnswer → List Frame
  | .answer _ r :: rest => r :: framesOf rest
  | .never :: _ => []
  | [] => []

/-- A result rounding that keeps the contract R40 (a): it fixes 0, delivers a finite binary64 value for every
rational, and keeps within `TOL` wherever a finite binary64 value is within `TOL` at all. (Where none is, the bound
of (a) asks the impossible; log entry 9.) -/
def Conforming (R : Rat → Rat) : Prop :=
  R 0 = 0 ∧ (∀ q : Rat, isBinary64 (R q) = true) ∧
    ∀ q v : Rat, keepsContract v q = true → keepsContract (R q) q = true

end Sys2Proof.Machine
end

