-- ==== Sys2Proof/Certificates/Slice0/Obligations.lean ====
section
/-! DEFINITION. The statements about the machine. Each docstring names the rule of spec/ it formalises. Where a
clause is the model's own choice the docstring says so and names the log entry. -/

open Sys2Proof Sys2Proof.Machine

/-! ### Encoding -/

/-- R33, R34, R37 and the opcode table: the eight table rows, as the numbers the table gives (the numbering of the
operand words is the model's, log entry 12). The LINEARIZE word is program P1's command 2, the DECODE word its
command 1. -/
def Obligations.TableWordsDecodeToTheirOperations : Prop :=
  decodeTableWord 8 0 = some (.decode 0#32) ∧ decodeTableWord 8 1 = some .rdtc ∧
  decodeTableWord 8 2 = some .rdcj ∧ decodeTableWord 8 3 = some .rdf ∧
  decodeTableWord 8 4 = some .rdflt ∧ decodeTableWord 8 5 = some .rdraw ∧
  decodeTableWord 8 6 = some (.linearize 0#64 0#64) ∧ decodeTableWord 8 7 = some .reserved ∧
  decodeTableWord 136 (0 + 0x000000000FA00A00 * 2 ^ 8) = some (.decode 0x0FA00A00#32) ∧
  decodeTableWord 136 (6 + 0x4024000000000000 * 2 ^ 8 + 0x406F400000000000 * 2 ^ 72) =
    some (.linearize 0x4024000000000000#64 0x406F400000000000#64)

/-- R30, R33, R34: as numbers, decoding the encoding of any operation gives it back with every operand, the low
three bits are its code, and a command is 136 bits (the numbering is the model's, log entry 12). -/
def Obligations.DecodingAnEncodedOperationGivesItBack : Prop :=
  ∀ i : Instr,
    decodeTableWord 136 (bitsOfCommand (encode i)) = some i ∧
    bitsOfCommand (encode i) % 8 = i.opcode.toNat ∧
    bitsOfCommand (encode i) < 2 ^ 136

/-- R34, R35: `op` alone selects the operation, the bits R34 calls ignored change nothing, and nothing else of a
command is lost: LINEARIZE keeps both words, DECODE the low 32 bits of `a`. -/
def Obligations.IgnoredOperandBitsChangeNothing : Prop :=
  (∀ c : Command, (decodeCommand c).opcode = c.op) ∧
  (∀ a b a' b' : Word64, a.setWidth 32 = a'.setWidth 32 →
    decodeCommand ⟨0#3, a, b⟩ = decodeCommand ⟨0#3, a', b'⟩ ∧
    decodeCommand ⟨0#3, a, b⟩ = .decode (a.setWidth 32)) ∧
  (∀ (op : OpCode) (a b a' b' : Word64), op ≠ 0#3 → op ≠ 6#3 →
    decodeCommand ⟨op, a, b⟩ = decodeCommand ⟨op, a', b'⟩) ∧
  (∀ a b : Word64, decodeCommand ⟨6#3, a, b⟩ = .linearize a b)

/-- R22: the frame of four bytes in arrival order is `B0*2^24 + B1*2^16 + B2*2^8 + B3`, with `B0 = r[31:24]` and
`B3 = r[7:0]`, and the k-th bit clocked in is `r[31-k]`. -/
def Obligations.FrameBytesAndBitsArriveMostSignificantFirst : Prop :=
  (∀ b0 b1 b2 b3 : Byte,
    (frameOfBytes b0 b1 b2 b3).toNat =
      b0.toNat * 2 ^ 24 + b1.toNat * 2 ^ 16 + b2.toNat * 2 ^ 8 + b3.toNat ∧
    (frameOfBytes b0 b1 b2 b3).extractLsb' 24 8 = b0 ∧
    (frameOfBytes b0 b1 b2 b3).extractLsb' 0 8 = b3) ∧
  (∀ bits : List Bool, bits.length = 32 → ∀ k, k < 32 →
    bits[k]? = some ((frameOfSerial bits).getLsbD (31 - k)))

/-- R31 in byte terms and R32: the fields of a frame assembled from its four bytes. -/
def Obligations.FieldsLieInTheTransactionBytes : Prop :=
  ∀ b0 b1 b2 b3 : Byte,
    tcField (frameOfBytes b0 b1 b2 b3) = (b0 ++ b1.extractLsb' 2 6 : BitVec 14).toNat ∧
    cjField (frameOfBytes b0 b1 b2 b3) = (b2 ++ b3.extractLsb' 4 4 : BitVec 12).toNat ∧
    faultBits (frameOfBytes b0 b1 b2 b3) = b3.extractLsb' 0 3 ∧
    (frameOfBytes b0 b1 b2 b3).getLsbD 17 = b1.getLsbD 1 ∧
    (frameOfBytes b0 b1 b2 b3).getLsbD 16 = b1.getLsbD 0 ∧
    (frameOfBytes b0 b1 b2 b3).getLsbD 3 = b3.getLsbD 3

/-- R39, `dec`: the value of a word from its sign, exponent and fraction; the two infinities alone have none. -/
def Obligations.OperandWordsDecodeAsBinary64 : Prop :=
  (∀ (sg : BitVec 1) (e : BitVec 11) (f : BitVec 52),
    dec (sg ++ e ++ f) =
      if e.toNat = 2047 then (if f = 0#52 then none else some .fault)
      else if e.toNat = 0 then some (.val ((-1 : ℚ) ^ sg.toNat * f.toNat * (2 : ℚ) ^ (-1074 : ℤ)))
      else some (.val ((-1 : ℚ) ^ sg.toNat * (2 ^ 52 + f.toNat) * (2 : ℚ) ^ ((e.toNat : ℤ) - 1075)))) ∧
  (∀ w : Word64, dec w = none ↔ w = 0x7FF0000000000000#64 ∨ w = 0xFFF0000000000000#64)

/-- R39, `enc` against `dec`, for every admitted word: the sentinel goes out as the one NaN word, zero as `+0`, and
every other value as the word it came from; and a word `enc` gives decodes to the temperature it encodes. -/
def Obligations.TemperatureEncodingInvertsDecoding : Prop :=
  (∀ w : Word64, dec w = some .fault → enc .fault = some 0x7FF8000000000000#64) ∧
  (∀ (w : Word64) (q : ℚ), dec w = some (.val q) →
    enc (.val q) = if q = 0 then some 0#64 else some w) ∧
  (∀ (t : Temp) (w : Word64), enc t = some w → dec w = some t)

/-! ### The frame decoder -/

/-- R47: sign extension of an N-bit field in any working width `W >= N` is the two's complement reading, whatever
`W`; at 14 and 12 bits it gives the stated ranges. -/
def Obligations.SignExtensionDoesNotDependOnTheWorkingWidth : Prop :=
  (∀ n w v : Nat, 0 < n → n ≤ w → v < 2 ^ n →
    extend v n w = (if v.testBit (n - 1) then v + 2 ^ w - 2 ^ n else v) ∧
    signExtend n w v = if v < 2 ^ (n - 1) then (v : ℤ) else (v : ℤ) - 2 ^ n) ∧
  (∀ r : Frame, -8192 ≤ tcCount r ∧ tcCount r ≤ 8191) ∧
  (∀ r : Frame, -2048 ≤ cjCount r ∧ cjCount r ≤ 2047)

/-- R45, R48 to R53: DECODE answers, in every state and for every frame, the reading of R53's table and returns to
`Idle`; nothing else of the state changes. -/
def Obligations.DecodeAnswersTheTableOfReadings : Prop :=
  ∀ (r : Frame) (s : State),
    exec (.decode r) s = .next { s with
      phase := .idle
      rsp := some (.reading
        { tc := if r = 0#32 ∨ r.extractLsb' 0 3 ≠ 0#3 then .fault
                else .val (((r.extractLsb' 18 14).toInt : ℚ) / 4)
          cj := if r = 0#32 then .fault else .val (((r.extractLsb' 4 12).toInt : ℚ) / 16)
          flags := r.extractLsb' 0 3 }
        (decide (r = 0#32))) }

/-- R50: the flags are `r[2:0]` for every frame, a set flag makes the thermocouple temperature `Fault`, each set bit
reports its condition, and bit 16 is not consulted: a frame with only bit 16 and fields set is valid. -/
def Obligations.FaultBitsAloneInvalidateTheThermocouple : Prop :=
  ∀ r : Frame,
    (decodeFrame r).flags = r.extractLsb' 0 3 ∧
    (r.extractLsb' 0 3 ≠ 0#3 → (decodeFrame r).tc = .fault) ∧
    (.openCircuit ∈ reported (.decode r) r ↔ r.getLsbD 0 = true) ∧
    (.shortToGnd ∈ reported (.decode r) r ↔ r.getLsbD 1 = true) ∧
    (.shortToVcc ∈ reported (.decode r) r ↔ r.getLsbD 2 = true) ∧
    (r.getLsbD 16 = true → r.extractLsb' 0 3 = 0#3 → (decodeFrame r).tc ≠ .fault) ∧
    (r.getLsbD 16 = false → r.extractLsb' 0 3 ≠ 0#3 → (decodeFrame r).tc = .fault)

/-- R51, R52 and the consequences in R53: what NO_DEVICE looks like, and the three ways to recognise it. -/
def Obligations.NoDeviceIsTheAllZeroFrameAlone : Prop :=
  ∀ r : Frame,
    (noDevice r = true ↔ r = 0#32) ∧
    (r = 0#32 → (decodeFrame r).tc = .fault ∧ (decodeFrame r).cj = .fault ∧ (decodeFrame r).flags = 0#3) ∧
    (noDevice r = true ↔ (decodeFrame r).cj = .fault) ∧
    (noDevice r = true ↔ (decodeFrame r).tc = .fault ∧ (decodeFrame r).flags = 0#3) ∧
    ((decodeFrame r).tc = .fault ↔ (decodeFrame r).flags ≠ 0#3 ∨ r = 0#32) ∧
    ((decodeFrame r).cj = .fault → (decodeFrame r).tc = .fault) ∧
    ((decodeFrame r).flags ≠ 0#3 → (decodeFrame r).cj ≠ .fault)

/-- R54: non-zero frames that agree outside bits 17, 16 and 3 have one reading; the seven frames made only of those
bits are valid zero readings. -/
def Obligations.ReservedAndAggregateBitsAreIgnored : Prop :=
  (∀ r r' : Frame, r ≠ 0#32 → r' ≠ 0#32 →
    (∀ k, k < 32 → k ≠ 17 → k ≠ 16 → k ≠ 3 → r.getLsbD k = r'.getLsbD k) →
    decodeFrame r = decodeFrame r' ∧ noDevice r = noDevice r') ∧
  (∀ r ∈ [0x00000008#32, 0x00010000#32, 0x00010008#32, 0x00020000#32, 0x00020008#32, 0x00030000#32, 0x00030008#32],
    decodeFrame r = { tc := .val 0, cj := .val 0, flags := 0#3 } ∧ noDevice r = false)

/-- R58: the round trip of the two fields everywhere but at (0, 0), where the frame is all-zero and reads as
NO_DEVICE. -/
def Obligations.FieldValuesRoundTripThroughAFrame : Prop :=
  decodeFrame 0#32 = { tc := .fault, cj := .fault, flags := 0#3 } ∧ noDevice 0#32 = true ∧
  ∀ n m : ℤ, -8192 ≤ n → n ≤ 8191 → -2048 ≤ m → m ≤ 2047 → (n, m) ≠ (0, 0) →
    let r : Frame := ((BitVec.ofInt 14 n).setWidth 32 <<< 18) ||| ((BitVec.ofInt 12 m).setWidth 32 <<< 4)
    decodeFrame r = { tc := .val ((n : ℚ) / 4), cj := .val ((m : ℚ) / 16), flags := 0#3 } ∧
    noDevice r = false

/-- R55, R56: a valid reading lies on the 1/4 and 1/16 degree grids, in the stated ranges, and is a binary64 value:
`enc` has a word for it that decodes back to exactly it. -/
def Obligations.ValidReadingsAreExactAndInRange : Prop :=
  ∀ r : Frame,
    (∀ q, (decodeFrame r).tc = .val q → -2048 ≤ q ∧ q ≤ 8191 / 4 ∧ (∃ n : ℤ, q = n / 4) ∧
      ∃ w, enc (.val q) = some w ∧ dec w = some (.val q)) ∧
    (∀ q, (decodeFrame r).cj = .val q → -128 ≤ q ∧ q ≤ 2047 / 16 ∧ (∃ m : ℤ, q = m / 16) ∧
      ∃ w, enc (.val q) = some w ∧ dec w = some (.val q))

/-! ### The linearisation engine -/

/-- R61: a `Fault` operand (beside an admitted one: an infinity is refused first, log entry 10) gives `Fault`
and reports nothing, whatever the other operand. -/
def Obligations.LinearizePassesAFaultThrough : Prop :=
  ∀ (a b : Word64) (s : State),
    (dec a = some .fault ∧ dec b ≠ none) ∨ (dec a ≠ none ∧ dec b = some .fault) →
    exec (.linearize a b) s = .next { s with phase := .idle, rsp := some (.temp .fault) } ∧
    ∀ r, reported (.linearize a b) r = []

/-- R62, R63, R64: the voltage estimate; on the 1/16 degree grid it is the even integer `N` over `16 * 10^6`, and
every comparison of R65 is one of integers. -/
def Obligations.TotalVoltageAndItsGridForm : Prop :=
  (∀ c t : ℚ, vtc c t = (t - c) * 0.041276 ∧ vcj c = c * 0.04073 ∧ vtotal c t = vtc c t + vcj c ∧
    vtotal c t = (41276 * t - 546 * c) / 10 ^ 6) ∧
  (∀ A B : ℤ, let N := 41276 * A - 546 * B
    vtotal ((B : ℚ) / 16) ((A : ℚ) / 16) = N / (16 * 10 ^ 6) ∧ Even N ∧
    (vtotal ((B : ℚ) / 16) ((A : ℚ) / 16) < 0 ↔ N < 0) ∧
    (vtotal ((B : ℚ) / 16) ((A : ℚ) / 16) < 20.644 ↔ N < 330304000) ∧
    (vtotal ((B : ℚ) / 16) ((A : ℚ) / 16) < 54.886 ↔ N < 878176000) ∧
    (-32768 ≤ A → A ≤ 32764 → -2048 ≤ B → B ≤ 2047 → |N| ≤ 1353650176 ∧ |N| < 2 ^ 31))

/-- R69: the evaluation is the sum of `d[i] * V^i`; Horner's form gives the same number. -/
def Obligations.PolynomialEvaluationIsThePowerSum : Prop :=
  ∀ (d : List ℚ) (v : ℚ), evalPoly d v = ∑ i ∈ Finset.range d.length, d.getD i 0 * v ^ i

/-- R60, R65, R66, R69, R71, R72: below 0 millivolts, however far, the nine NEG coefficients apply and LINEARIZE
answers `RND` of the polynomial, unless its exact value is at or beyond `2^1024` in magnitude (R73). -/
def Obligations.LinearizeBelowZeroUsesTheNegTable : Prop :=
  ∀ (a b : Word64) (c t : ℚ) (s : State), dec a = some (.val c) → dec b = some (.val t) →
    let V : ℚ := (t - c) * 0.041276 + c * 0.04073
    let T : ℚ := 0 + 25.173462 * V - 1.1662878 * V ^ 2 - 1.0833638 * V ^ 3 - 0.8977354 * V ^ 4
      - 0.37342377 * V ^ 5 - 0.086632643 * V ^ 6 - 0.010450598 * V ^ 7 - 0.00051920577 * V ^ 8
    V < 0 →
    (|T| < (2 : ℚ) ^ (1024 : ℕ) →
      exec (.linearize a b) s = .next { s with phase := .idle, rsp := some (.temp (.val (rnd T))) }) ∧
    ((2 : ℚ) ^ (1024 : ℕ) ≤ |T| → exec (.linearize a b) s = .refused .resultBeyondBinary64)

/-- R60, R65, R67, R69, R71: from 0 up to 20.644 millivolts the ten MID coefficients apply, and LINEARIZE always
answers. -/
def Obligations.LinearizeMidRangeUsesTheMidTable : Prop :=
  ∀ (a b : Word64) (c t : ℚ) (s : State), dec a = some (.val c) → dec b = some (.val t) →
    let V : ℚ := (t - c) * 0.041276 + c * 0.04073
    let T : ℚ := 0 + 25.08355 * V + 0.07860106 * V ^ 2 - 0.2503131 * V ^ 3 + 0.0831527 * V ^ 4
      - 0.01228034 * V ^ 5 + 0.0009804036 * V ^ 6 - 0.00004413030 * V ^ 7 + 0.000001057734 * V ^ 8
      - 0.00000001052755 * V ^ 9
    0 ≤ V → V < 20.644 →
    exec (.linearize a b) s = .next { s with phase := .idle, rsp := some (.temp (.val (rnd T))) }

/-- R60, R65, R68, R69, R71: from 20.644 up to 54.886 millivolts the seven HI coefficients apply, and LINEARIZE
always answers. -/
def Obligations.LinearizeHighRangeUsesTheHiTable : Prop :=
  ∀ (a b : Word64) (c t : ℚ) (s : State), dec a = some (.val c) → dec b = some (.val t) →
    let V : ℚ := (t - c) * 0.041276 + c * 0.04073
    let T : ℚ := -131.8058 + 48.30222 * V - 1.646031 * V ^ 2 + 0.05464731 * V ^ 3 - 0.0009650715 * V ^ 4
      + 0.000008802193 * V ^ 5 - 0.00000003110810 * V ^ 6
    20.644 ≤ V → V < 54.886 →
    exec (.linearize a b) s = .next { s with phase := .idle, rsp := some (.temp (.val (rnd T))) }

/-- R70: at and above 54.886 millivolts the response is `Fault` and OUT_OF_RANGE is reported; with the cold junction
at 0 that is every quarter degree from 1329.75 on, and not 1329.5. -/
def Obligations.LinearizeAboveTheTablesAnswersFault : Prop :=
  (∀ (a b : Word64) (c t : ℚ) (s : State), dec a = some (.val c) → dec b = some (.val t) →
    54.886 ≤ (t - c) * 0.041276 + c * 0.04073 →
    exec (.linearize a b) s = .next { s with phase := .idle, rsp := some (.temp .fault) } ∧
    ∀ r, reported (.linearize a b) r = [.outOfRange]) ∧
  (∀ n : ℤ, corrected (vtotal 0 ((n : ℚ) / 4)) = none ↔ (1329.75 : ℚ) ≤ (n : ℚ) / 4)

/-- R73, U2: an infinite operand word is refused, and the refusal names it. That it is refused beside a `Fault` as
well (R73 taken before R61's "the test comes before everything else") is the model's reading, log entry 10. -/
def Obligations.LinearizeRefusesInfiniteOperands : Prop :=
  ∀ (a b : Word64) (s : State),
    (a ∈ [0x7FF0000000000000#64, 0xFFF0000000000000#64] ∨ b ∈ [0x7FF0000000000000#64, 0xFFF0000000000000#64]) ↔
    exec (.linearize a b) s = .refused .infiniteOperand

/-- R74: the response depends on the operands only through the total voltage, and zero gives zero. -/
def Obligations.LinearizeDependsOnTheVoltageOnly : Prop :=
  (∀ (a b a' b' : Word64) (c t c' t' : ℚ) (s : State),
    dec a = some (.val c) → dec b = some (.val t) → dec a' = some (.val c') → dec b' = some (.val t') →
    (41276 * t - 546 * c) / 10 ^ 6 = (41276 * t' - 546 * c') / 10 ^ 6 →
    exec (.linearize a b) s = exec (.linearize a' b') s) ∧
  (∀ s : State, exec (.linearize 0#64 0#64) s = .next { s with phase := .idle, rsp := some (.temp (.val 0)) })

/-! ### Rounding and conversion -/

/-- R40 (b): the default rounding gives a binary64 value, none is nearer, and of two equally near ones it takes the
one with the even last bit. (Up to `2^1024 - 2^970`, where (b) stays in the format; log entry 8.) -/
def Obligations.RoundingIsToNearestTiesToEven : Prop :=
  ∀ q : ℚ, |q| < (2 : ℚ) ^ (1024 : ℕ) - (2 : ℚ) ^ (970 : ℕ) →
    ∃ w, enc (.val (rnd q)) = some w ∧
      ∀ (w' : Word64) (v : ℚ), dec w' = some (.val v) →
        |rnd q - q| ≤ |v - q| ∧ (|rnd q - q| = |v - q| → v ≠ rnd q → w.getLsbD 0 = false)

/-- R40 (a) for the model's `RND`: 0 for 0; for every rational a finite binary64 value; within `TOL` from
`10^6 * 2^-1075` up to `2^1024` in magnitude, and outside that range wherever any finite binary64 value is within `TOL`
(where none is, the bound of (a) asks the impossible, log entry 9); within `2^-53` on the normal range where the
default (b) stays in the format. At the top of the format the free value of log entry 8 is covered, whatever it is. -/
def Obligations.RoundingKeepsTheAccuracyContract : Prop :=
  rnd 0 = 0 ∧
  ∀ q : ℚ,
    (∃ w, enc (.val (rnd q)) = some w) ∧
    (10 ^ 6 * (2 : ℚ) ^ (-1075 : ℤ) ≤ |q| → |q| < (2 : ℚ) ^ (1024 : ℕ) → |rnd q - q| ≤ 10 ^ (-6 : ℤ) * |q|) ∧
    (∀ (w : Word64) (v : ℚ), dec w = some (.val v) → |v - q| ≤ 10 ^ (-6 : ℤ) * |q| →
      |rnd q - q| ≤ 10 ^ (-6 : ℤ) * |q|) ∧
    ((2 : ℚ) ^ (-1022 : ℤ) ≤ |q| → |q| < (2 : ℚ) ^ (1024 : ℕ) - (2 : ℚ) ^ (970 : ℕ) →
      |rnd q - q| ≤ 2 ^ (-53 : ℤ) * |q|)

/-- U11, R40 (a): whichever conforming rounding an implementation uses, it answers `Fault` and is refused on the
same operands. On the others, with exact result `T`, both answer finite binary64 values: both 0 for `T = 0`, and
values within the two contracts of each other from `10^6 * 2^-1075` in magnitude on. Between, nothing is claimed but
that the values are finite: there no value within `TOL` need exist (`Conforming`, log entry 9). -/
def Obligations.ConformingRoundingsAgreeUpToTheContract : Prop :=
  ∀ (R R' : ℚ → ℚ) (cj tc : Temp), Conforming R → Conforming R' →
    (linearizeTemp R cj tc = some .fault ↔ linearizeTemp R' cj tc = some .fault) ∧
    (linearizeTemp R cj tc = none ↔ linearizeTemp R' cj tc = none) ∧
    (∀ c t T : ℚ, cj = .val c → tc = .val t → corrected (vtotal c t) = some T → |T| < (2 : ℚ) ^ (1024 : ℕ) →
      ∃ (x y : ℚ) (w w' : Word64),
        linearizeTemp R cj tc = some (.val x) ∧ linearizeTemp R' cj tc = some (.val y) ∧
        enc (.val x) = some w ∧ enc (.val y) = some w' ∧
        (T = 0 → x = 0 ∧ y = 0) ∧
        (10 ^ 6 * (2 : ℚ) ^ (-1075 : ℤ) ≤ |T| → |x - y| ≤ 2 * 10 ^ (-6 : ℤ) * |T|))

/-- R76, R77: `CtoF` passes `Fault` through, and is one rounding of the exact `(9*c + 160)/5`; on the 1/4 degree grid
that is `(9*n + 640)/20`. -/
def Obligations.FahrenheitIsOneRoundingOfTheExactValue : Prop :=
  ∀ R : ℚ → ℚ, ctoF R .fault = .fault ∧
    (∀ c : ℚ, ctoF R (.val c) = .val (R (c * 9 / 5 + 32)) ∧ ctoF R (.val c) = .val (R ((9 * c + 160) / 5))) ∧
    (∀ n : ℤ, ctoF R (.val ((n : ℚ) / 4)) = .val (R ((9 * n + 640) / 20)))

/-! ### The read operations -/

/-- R80, R17: a read operation raises one request and responds nothing; while the answer to its own fetch is delayed
or does not come it goes on waiting. Nothing else changes. R17 and R80 give the request from `Busy`, the one phase in
which a step executes it for the first time; that `exec` makes the same move in `Idle` and in another operation's
`WaitFetch`, where no step executes it, is the model's choice, log entry 17. -/
def Obligations.ReadOperationsRequestOnceAndWait : Prop :=
  ∀ (op : ReadOp) (s : State),
    (s.phase ≠ .waitFetch op →
      exec op.instr s = .next { s with phase := .waitFetch op, rsp := none }) ∧
    (∀ d r k, s.phase = .waitFetch op → s.acquirer = .answer (d + 1) r :: k →
      exec op.instr s = .next { s with rsp := none, acquirer := .answer d r :: k }) ∧
    (s.phase = .waitFetch op → (s.acquirer = [] ∨ ∃ k, s.acquirer = .never :: k) →
      exec op.instr s = .next { s with rsp := none })

/-- R81: when its fetch is answered with `r`, RDTC responds the thermocouple temperature of `r`, consumes that one
answer, and changes nothing else. -/
def Obligations.RdtcAnswersTheThermocoupleTemperature : Prop :=
  ∀ (s : State) (r : Frame) (k : List FetchAnswer), s.phase = .waitFetch .rdtc → s.acquirer = .answer 0 r :: k →
    exec .rdtc s = .next { s with
      phase := .idle, acquirer := k
      rsp := some (.temp (if r = 0#32 ∨ r.extractLsb' 0 3 ≠ 0#3 then .fault
        else .val (((r.extractLsb' 18 14).toInt : ℚ) / 4))) }

/-- R82: RDCJ responds the cold-junction temperature; the three sensor faults do not affect it. -/
def Obligations.RdcjAnswersTheColdJunctionTemperature : Prop :=
  ∀ (s : State) (r : Frame) (k : List FetchAnswer), s.phase = .waitFetch .rdcj → s.acquirer = .answer 0 r :: k →
    exec .rdcj s = .next { s with
      phase := .idle, acquirer := k
      rsp := some (.temp (if r = 0#32 then .fault else .val (((r.extractLsb' 4 12).toInt : ℚ) / 16))) }

/-- R83, R77: RDF responds the thermocouple temperature in Fahrenheit, one rounding of `(9*n + 640)/20` for the
count `n`; `Fault` wherever RDTC would. -/
def Obligations.RdfAnswersTheTemperatureInFahrenheit : Prop :=
  ∀ (s : State) (r : Frame) (k : List FetchAnswer), s.phase = .waitFetch .rdf → s.acquirer = .answer 0 r :: k →
    exec .rdf s = .next { s with
      phase := .idle, acquirer := k
      rsp := some (.temp (if r = 0#32 ∨ r.extractLsb' 0 3 ≠ 0#3 then .fault
        else .val (rnd ((9 * ((r.extractLsb' 18 14).toInt : ℚ) + 640) / 20)))) }

/-- R84, R110: RDFLT responds the three fault bits; for the all-zero frame that is `000`. -/
def Obligations.RdfltAnswersTheFaultBits : Prop :=
  ∀ (s : State) (r : Frame) (k : List FetchAnswer), s.phase = .waitFetch .rdflt → s.acquirer = .answer 0 r :: k →
    exec .rdflt s = .next { s with
      phase := .idle, acquirer := k
      rsp := some (.flags (r.extractLsb' 0 3)) }

/-- R85: RDRAW responds the frame itself, or the word 0 for a frame with a fault bit set (the spec's predicate D10,
log entry 14); on the port the word stands zero-extended in `rsp_x`. -/
def Obligations.RdrawAnswersTheFrameOrZero : Prop :=
  ∀ (s : State) (r : Frame) (k : List FetchAnswer), s.phase = .waitFetch .rdraw → s.acquirer = .answer 0 r :: k →
    ∃ t, exec .rdraw s = .next t ∧
      t = { s with
        phase := .idle, acquirer := k
        rsp := some (.word (if r.extractLsb' 0 3 ≠ 0#3 then 0#32 else r)) } ∧
      t.rspX = some (if r.extractLsb' 0 3 ≠ 0#3 then 0#64 else r.setWidth 64)

/-- R87, R108: for every frame, the read operations' items are DECODE's members; and DECODE of RDRAW's word shows
NO_DEVICE exactly when the fetched frame had no valid thermocouple reading, with the cause and the cold-junction
temperature lost. -/
def Obligations.ReadOperationsAgreeWithDecode : Prop :=
  ∀ r : Frame,
    rdtcResponse r = .temp (decodeFrame r).tc ∧ rdcjResponse r = .temp (decodeFrame r).cj ∧
    rdfResponse r = .temp (ctoF rnd (decodeFrame r).tc) ∧ rdfltResponse r = .flags (decodeFrame r).flags ∧
    rdrawResponse r = .word (if (decodeFrame r).flags ≠ 0#3 then 0#32 else r) ∧
    ∀ w, rdrawResponse r = .word w →
      (noDevice w = true ↔ r = 0#32 ∨ r.extractLsb' 0 3 ≠ 0#3) ∧
      (noDevice w = true ↔ (decodeFrame r).tc = .fault) ∧
      (r.extractLsb' 0 3 ≠ 0#3 → decodeFrame w = { tc := .fault, cj := .fault, flags := 0#3 })

/-! ### Conditions and ports -/

/-- R90, R94: which conditions a `Fault` stands for: a sensor condition or NO_DEVICE for `tc`, NO_DEVICE alone for
`cj`; NO_DEVICE excludes the sensor conditions; OUT_OF_RANGE comes from LINEARIZE alone, with both operands valid.
LINEARIZE answers `Fault` exactly when an operand is `Fault`, which is passed through and reports nothing (R61), or
OUT_OF_RANGE is reported. (That RDRAW reports no condition by name is R85; the list form is the model's, log
entry 23.) -/
def Obligations.ReportedConditionsExplainEveryFault : Prop :=
  (∀ r : Frame,
    ((decodeFrame r).tc = .fault ↔ reported (.decode r) r ≠ []) ∧
    ((decodeFrame r).tc = .fault ↔ reported .rdtc r ≠ []) ∧
    (ctoF rnd (decodeFrame r).tc = .fault ↔ reported .rdf r ≠ []) ∧
    ((decodeFrame r).cj = .fault ↔ reported .rdcj r = [.noDevice]) ∧
    (faultBits r ≠ 0#3 ↔ reported .rdflt r ≠ []) ∧
    (.noDevice ∈ reported .rdtc r → reported .rdtc r = [.noDevice])) ∧
  (∀ (i : Instr) (r : Frame), .outOfRange ∈ reported i r ↔
    ∃ a b c t, i = .linearize a b ∧ dec a = some (.val c) ∧ dec b = some (.val t) ∧
      54.886 ≤ (41276 * t - 546 * c) / 10 ^ 6) ∧
  (∀ (a b : Word64) (r : Frame) (s t : State), exec (.linearize a b) s = .next t →
    (t.rsp = some (.temp .fault) ↔
      dec a = some .fault ∨ dec b = some .fault ∨ reported (.linearize a b) r = [.outOfRange]) ∧
    (dec a = some .fault ∨ dec b = some .fault → reported (.linearize a b) r = []))

/-- R34, R41: what the response ports carry after each operation that responds at once, and after each fetch, with
`rsp_valid` up and `cmd_ready` back. A port R34 calls unspecified reads `none`, which is no value (the model's form,
log entry 18). -/
def Obligations.ResponsePortsCarryTheirTableRow : Prop :=
  (∀ (r : Frame) (s t : State), exec (.decode r) s = .next t →
    t.rspValid = true ∧ t.cmdReady = true ∧ t.rspX = enc (decodeFrame r).tc ∧ t.rspY = enc (decodeFrame r).cj ∧
    t.rspFlags = some (r.extractLsb' 0 3) ∧ t.rspNodev = some (r == 0#32)) ∧
  (∀ (a b : Word64) (s t : State), exec (.linearize a b) s = .next t →
    t.rspValid = true ∧ t.cmdReady = true ∧ t.rspY = none ∧ t.rspFlags = none ∧ t.rspNodev = none ∧
    ∃ T, responseOf (.linearize a b) 0#32 = some (.temp T) ∧ t.rspX = enc T ∧ t.rspX ≠ none) ∧
  (∀ (op : ReadOp) (s t : State) (r : Frame) (k : List FetchAnswer),
    s.phase = .waitFetch op → s.acquirer = .answer 0 r :: k → exec op.instr s = .next t →
    t.rspValid = true ∧ t.cmdReady = true ∧ t.acqReq = false ∧ t.rspY = none ∧ t.rspNodev = none ∧
    t.rspX = (match op with
      | .rdtc => enc (decodeFrame r).tc
      | .rdcj => enc (decodeFrame r).cj
      | .rdf => enc (ctoF rnd (decodeFrame r).tc)
      | .rdflt => none
      | .rdraw => some (if r.extractLsb' 0 3 ≠ 0#3 then 0#64 else r.setWidth 64)) ∧
    t.rspFlags = (if op = .rdflt then some (r.extractLsb' 0 3) else none))

/-- R34: `cmd_ready` is 1 exactly in `Idle` and `acq_req` exactly in `WaitFetch`; with `rst = 0`, the step in which
`cmd_valid` and `cmd_ready` are 1 accepts the admitted command on the port, or refuses one that is not admitted, and no
other step accepts one; the step in which `acq_valid` is 1 ends the wait with a response computed from `acq_data`.
R37 and R73 say that a command not admitted is refused; that this very step refuses it is the model's reading, log
entry 11. -/
def Obligations.HandshakesAcceptCommandsAndFrames : Prop :=
  ∀ s : State,
    (s.cmdReady = true ↔ s.phase = .idle) ∧ (s.acqReq = true ↔ ∃ op, s.phase = .waitFetch op) ∧
    (s.rst.headD false = false →
      (∀ c, s.cmdPort = some c → s.cmdReady = true →
        (∀ o : Operation, decodeCommand c = o.instr → o.instr.wellFormed = true →
          ∃ t, step s = .next t ∧ t.phase = .busy o ∧ t.host = s.host.tail ∧ t.rspValid = false) ∧
        ((decodeCommand c).wellFormed = false → ∃ ρ, step s = .refused ρ)) ∧
      (∀ t (o : Operation), step s = .next t → t.phase = .busy o →
        s.cmdReady = true ∧ o.instr.wellFormed = true ∧ ∃ c, s.cmdPort = some c ∧ decodeCommand c = o.instr) ∧
      (∀ r, s.acqData = some r → ∃ t op, s.phase = .waitFetch op ∧ step s = .next t ∧ t.phase = .idle ∧
        t.acqReq = false ∧ t.rspValid = true ∧ t.rsp = responseOf op.instr r))

/-! ### The machine -/

/-- R19, R105: after reset the phase is `Idle`, no response is valid, no frame is requested, a command can be
accepted. (That no neighbour has a move pending is the model's, log entry 16, and not stated.) -/
def Obligations.ResetLeavesTheMachineIdle : Prop :=
  State.reset.phase = .idle ∧ State.reset.rspValid = false ∧ State.reset.acqReq = false ∧
    State.reset.cmdReady = true ∧ State.reset.legal = true

/-- R105: reset in any phase goes to `Idle` without a response and accepts nothing; the answer to a pending fetch is
dropped (as an entry of the model's list, log entry 5), so it goes to no later command; other answers stay, and the host makes its own move (`hostMove`, R116, log entry 2). -/
def Obligations.ResetAbandonsTheCommandInFlight : Prop :=
  ∀ (s : State) (k : List Bool), s.rst = true :: k →
    (∀ op, s.phase = .waitFetch op →
      step s = .next { s with
        phase := .idle, rsp := none, rst := k, host := hostMove s.host, acquirer := s.acquirer.tail }) ∧
    ((∀ op, s.phase ≠ .waitFetch op) →
      step s = .next { s with phase := .idle, rsp := none, rst := k, host := hostMove s.host })

/-- R17, R33: a step with a command in flight executes its operation, and a step with a fetch pending goes on executing
the operation that asked; around it the step only moves the reset input and the host on (`hostMove`, log entries 2 and
4). Every admitted command has an operation
that can be in flight. -/
def Obligations.StepExecutesTheOperationInFlight : Prop :=
  (∀ (s : State), s.rst.headD false = false →
    (∀ o, s.phase = .busy o → step s = exec o.instr { s with rst := s.rst.tail, host := hostMove s.host }) ∧
    (∀ op, s.phase = .waitFetch op →
      step s = exec op.instr { s with rst := s.rst.tail, host := hostMove s.host })) ∧
  (∀ c : Command, (decodeCommand c).wellFormed = true →
    ∃ o, o.instr = decodeCommand c ∧ ∀ s : State, s.rst.headD false = false → s.phase = .busy o →
      step s = exec (decodeCommand c) { s with rst := s.rst.tail, host := hostMove s.host })

/-- The model's `withFetchWord` (log entry 13): the very next step executes the operation of the word, with an
admitted one in flight and another one presented in `Idle`. -/
def Obligations.PlacedWordIsExecutedNext : Prop :=
  ∀ (s : State) (nbits w : Nat) (i : Instr), decodeTableWord nbits w = some i →
    ∃ t, step (s.withFetchWord nbits w) = exec i t ∧
      (i.wellFormed = true → ∃ o, o.instr = i ∧
        t = { s with phase := .busy o, rst := s.rst.tail, host := hostMove s.host }) ∧
      (i.wellFormed = false → ∃ c, decodeCommand c = i ∧
        t = { s with phase := .idle, host := ⟨0, c⟩ :: s.host, rst := s.rst.tail })

/-- R26, R116: a command is accepted only in `Idle`, in the order presented; in every other phase, and under reset, it
is neither lost nor executed early: it goes on waiting. One not yet presented comes one step nearer in every step,
whatever TCFD does (that the host's timing is a count of steps is the model's form, log entry 2). -/
def Obligations.CommandsWaitUntilIdleAndAreNeverLost : Prop :=
  (∀ (s : State) (c : Command) (k : List Presentation) (o : Operation), s.rst.headD false = false →
    s.phase = .idle → s.host = ⟨0, c⟩ :: k → decodeCommand c = o.instr → o.instr.wellFormed = true →
    step s = .next { s with phase := .busy o, rsp := none, host := k, rst := s.rst.tail }) ∧
  (∀ (s t : State) (c : Command) (k : List Presentation), step s = .next t → s.host = ⟨0, c⟩ :: k →
    s.phase ≠ .idle ∨ s.rst.headD false = true → t.host = s.host) ∧
  (∀ (s t : State) (d : Nat) (c : Command) (k : List Presentation), step s = .next t → s.host = ⟨d + 1, c⟩ :: k →
    t.host = ⟨d, c⟩ :: k) ∧
  (∀ s t : State, step s = .next t → ∃ served, t.host.map (·.cmd) = (s.host.map (·.cmd)).drop served ∧ served ≤ 1)

/-- R17: with `rst = 0`, every step is one of the in-flight record's moves, and a response is emitted exactly on a
move to `Idle` from `Busy` or `WaitFetch`: the response the operation owes. -/
def Obligations.EveryStepIsAMoveOfTheInFlightRecord : Prop :=
  ∀ s t : State, s.rst.headD false = false → step s = .next t →
    (s.phase = .idle ∧ t.phase = .idle ∧ t.rsp = none) ∨
    (∃ c k o, s.phase = .idle ∧ s.host = ⟨0, c⟩ :: k ∧ decodeCommand c = o.instr ∧ o.instr.wellFormed = true ∧
      t.phase = .busy o ∧ t.host = k ∧ t.rsp = none) ∨
    (∃ o op, s.phase = .busy o ∧ o.instr = op.instr ∧ t.phase = .waitFetch op ∧ t.rsp = none) ∨
    (∃ o x, s.phase = .busy o ∧ fetches o.instr = false ∧
      responseOf o.instr 0#32 = some x ∧ t.phase = .idle ∧ t.rsp = some x) ∨
    (∃ op r k, s.phase = .waitFetch op ∧ s.acquirer = .answer 0 r :: k ∧ t.acquirer = k ∧ t.phase = .idle ∧
      t.rsp = responseOf op.instr r) ∨
    (∃ op, s.phase = .waitFetch op ∧ (∀ r k, s.acquirer ≠ .answer 0 r :: k) ∧ t.phase = .waitFetch op ∧
      t.rsp = none)

/-- R29, R113, U8: while the FrameAcquirer does not answer and `rst` stays 0, any number of steps leaves the machine
in `WaitFetch`, with no response and no command accepted; when reset comes after that, the machine is `Idle`. -/
def Obligations.UnansweredFetchHangsUntilReset : Prop :=
  ∀ (s : State) (op : ReadOp), s.phase = .waitFetch op → (s.acquirer = [] ∨ ∃ k, s.acquirer = .never :: k) →
    ((∀ b ∈ s.rst, b = false) → ∀ n, ∃ t, runN n s = some ([], t) ∧ t.phase = .waitFetch op ∧
      t.host.map (·.cmd) = s.host.map (·.cmd) ∧ t.acquirer = s.acquirer) ∧
    (∀ n k, s.rst = List.replicate n false ++ true :: k → ∃ t, runN (n + 1) s = some ([], t) ∧ t.phase = .idle ∧
      t.host.map (·.cmd) = s.host.map (·.cmd))

/-- R37, U1: a command with `op = 7` is refused, whatever its operand words and whatever else the state holds. That the
refusal is the step that would accept it is the model's reading, log entry 11: it is never in flight, so no run gets
past it and no later reset hides it. -/
def Obligations.ReservedCodeIsRefused : Prop :=
  (∀ s : State, exec .reserved s = .refused .reservedOperationCode) ∧
  (∀ (s : State) (a b : Word64) (k : List Presentation), s.rst.headD false = false → s.phase = .idle →
    s.host = ⟨0, ⟨7#3, a, b⟩⟩ :: k →
    step s = .refused .reservedOperationCode ∧ ∀ n, runN (n + 1) s = none) ∧
  (∀ o : Operation, o.instr.opcode ≠ 7#3)

/-- R91, R73: every admitted operation is executed in every state, and the others are refused in every state. Two
parts are the model's: a read operation is executed in `Idle` and in another operation's `WaitFetch` as well, where no
step executes one (log entry 17), and an infinity beside a `Fault` counts as not admitted (log entry 10). -/
def Obligations.AdmittedOperationsExecuteAndOthersAreRefused : Prop :=
  ∀ (i : Instr) (s : State),
    (i.wellFormed = true → ∃ t, exec i s = .next t) ∧
    (i.wellFormed = false → ∃ ρ, exec i s = .refused ρ)

/-- R18, R11: the response depends on the operands, or on the one answer to this command's request, and on nothing
else the state holds. -/
def Obligations.ResponsesDoNotDependOnHistory : Prop :=
  ∀ (i : Instr) (s s' t t' : State), exec i s = .next t → exec i s' = .next t' →
    (fetches i = false → t.rsp = t'.rsp) ∧
    (s.phase = s'.phase → s.acquirer.head? = s'.acquirer.head? → t.rsp = t'.rsp ∧ t.phase = t'.phase)

/-- The invariant `State.legal` (Safety.lean): a command in flight is an admitted one (R37, R73), a response stands on
the port only in `Idle` (R17), every temperature delivered is one a port word can carry (R39, R40, R56), a delivered
reading is one of R53's rows, and RDRAW never delivers a fault frame (R85). Every step keeps it. -/
def Obligations.EveryStepKeepsStatesLegal : Prop :=
  ∀ s t : State, s.legal = true → step s = .next t → t.legal = true

/-- R117, R26, R18: from `Idle`, with no reset, the commands the host presents and the frames the FrameAcquirer
answers with determine the observation: whatever the waits and delays, the machine delivers exactly the responses the
commands owe, in order, ends in `Idle` with every command served and one frame used per read operation, and delivers
nothing after. -/
def Obligations.RunsDeliverExactlyTheResponsesOwed : Prop :=
  ∀ (s : State) (xs : List Response), s.phase = .idle → (∀ b ∈ s.rst, b = false) →
    responsesTo (operationsOf s.host) (framesOf s.acquirer) = some xs →
    ∃ n, ∀ m, n ≤ m → ∃ t, runN m s = some (xs, t) ∧ t.phase = .idle ∧ t.host = [] ∧
      framesOf t.acquirer = (framesOf s.acquirer).drop ((operationsOf s.host).countP fetches)

/-- R37, R73, R91: from a legal state a step is refused only in `Idle`, with no reset, for a command that is on the
port and not admitted; a command once in flight is never refused. (That acceptance is where the model refuses is log
entry 11.) -/
def Obligations.LegalStatesRefuseOnlyAtAcceptance : Prop :=
  ∀ (s : State) (ρ : Refusal), s.legal = true →
    (step s = .refused ρ → s.phase = .idle ∧ s.rst.headD false = false ∧
      ∃ c, s.cmdPort = some c ∧ (decodeCommand c).wellFormed = false ∧ exec (decodeCommand c) s = .refused ρ) ∧
    (∀ φ, step s ≠ .fault φ)

/-- R116: the host may present a command at any time. From every state, whatever the phases on the way, the fetches
pending and the resets, a command that is `n` steps away is on the port after `n` steps and not before; so for every
`n`, `cmd_valid` can rise in that very step. (The count is the model's form, log entry 2.) -/
def Obligations.HostPresentsAtAnyTime : Prop :=
  ∀ (s : State) (n : Nat) (c : Command) (k : List Presentation), s.host = ⟨n, c⟩ :: k →
    ∀ (m : Nat) (xs : List Response) (t : State), m ≤ n → runN m s = some (xs, t) →
      t.host = ⟨n - m, c⟩ :: k ∧ (t.cmdValid = true ↔ m = n) ∧ (m = n → t.cmdPort = some c)
end

