-- ==== Sys2Proof/Laws/Rational.lean ====
section
/-! SUPPORT. The arithmetic of Machine/Rational.lean is `Rat`'s own; the specifications of `floorLog2` and
`nearestEven`. -/

namespace Sys2Proof.Machine

@[simp] theorem ratAdd_eq (a b : Rat) : ratAdd a b = a + b := by
  rw [ratAdd, Rat.add_def, Rat.normalize_eq_mkRat]

@[simp] theorem ratSub_eq (a b : Rat) : ratSub a b = a - b := by
  rw [ratSub, Rat.sub_def, Rat.normalize_eq_mkRat]

@[simp] theorem ratMul_eq (a b : Rat) : ratMul a b = a * b := by
  rw [ratMul, Rat.mul_def, Rat.normalize_eq_mkRat]

@[simp] theorem ratNeg_eq (a : Rat) : ratNeg a = -a := by
  rw [ratNeg, Rat.mkRat_eq_div]
  push_cast
  rw [neg_div, Rat.num_div_den]

@[simp] theorem ratAbs_eq (a : Rat) : ratAbs a = |a| := by
  rw [ratAbs, Rat.mkRat_eq_div]
  conv_rhs => rw [← Rat.num_div_den a]
  rw [abs_div, Int.natCast_natAbs]
  push_cast
  simp

@[simp] theorem ratOfInt_eq (n : Int) : ratOfInt n = (n : Rat) := by
  rw [ratOfInt, Rat.mkRat_eq_div]
  simp

@[simp] theorem pow2_eq (k : Int) : pow2 k = (2 : Rat) ^ k := by
  unfold pow2
  split
  case isTrue h =>
    rw [Rat.mkRat_eq_div]
    obtain ⟨n, rfl⟩ := Int.eq_ofNat_of_zero_le h
    simp
  case isFalse h =>
    obtain ⟨n, hn⟩ := Int.eq_ofNat_of_zero_le (show 0 ≤ -k by omega)
    obtain rfl : k = -(n : Int) := by omega
    rw [Rat.mkRat_eq_div]
    simp

/-- The two powers of two around a positive natural number. -/
theorem nat_log2_bounds {n : Nat} (h : n ≠ 0) :
    (2 : Rat) ^ (Nat.log2 n : Int) ≤ n ∧ (n : Rat) < 2 ^ ((Nat.log2 n : Int) + 1) := by
  constructor
  · have := Nat.log2_self_le h
    exact_mod_cast this
  · have := Nat.lt_log2_self (n := n)
    exact_mod_cast this

/-- `floorLog2` is the exponent of the power of two just below its argument. -/
theorem floorLog2_spec {q : Rat} (hq : 0 < q) :
    (2 : Rat) ^ floorLog2 q ≤ q ∧ q < (2 : Rat) ^ (floorLog2 q + 1) := by
  have hn : 0 < q.num := Rat.num_pos.mpr hq
  have hn' : q.num.toNat ≠ 0 := by omega
  obtain ⟨n1, n2⟩ := nat_log2_bounds hn'
  obtain ⟨d1, d2⟩ := nat_log2_bounds q.den_nz
  have hnum : ((q.num.toNat : Nat) : Rat) = (q.num : Rat) := by
    exact_mod_cast Int.toNat_of_nonneg hn.le
  rw [hnum] at n1 n2
  have hd : (0 : Rat) < q.den := by exact_mod_cast q.den_pos
  have hqe : q = (q.num : Rat) / q.den := (Rat.num_div_den q).symm
  set a : Int := (Nat.log2 q.num.toNat : Int)
  set b : Int := (Nat.log2 q.den : Int)
  have two : (2 : Rat) ≠ 0 := by norm_num
  have upper : q < 2 ^ (a - b + 1) := by
    rw [hqe, div_lt_iff₀ hd]
    calc (q.num : Rat) < 2 ^ (a + 1) := n2
      _ = 2 ^ (a - b + 1) * 2 ^ b := by rw [← zpow_add₀ two]; congr 1; ring
      _ ≤ 2 ^ (a - b + 1) * q.den := by gcongr
  have lower : 2 ^ (a - b - 1) ≤ q := by
    rw [hqe, le_div_iff₀ hd]
    calc (2 : Rat) ^ (a - b - 1) * q.den ≤ 2 ^ (a - b - 1) * 2 ^ (b + 1) := by gcongr
      _ = 2 ^ a := by rw [← zpow_add₀ two]; congr 1; ring
      _ ≤ q.num := n1
  have hdef : floorLog2 q = if (2 : Rat) ^ (a - b) ≤ q then a - b else a - b - 1 := by
    simp only [floorLog2, pow2_eq]
    rfl
  rw [hdef]
  split
  case isTrue h => exact ⟨h, upper⟩
  case isFalse h => exact ⟨lower, by simpa using not_le.mp h⟩

/-- `nearestEven x` is within one half of `x`. -/
theorem nearestEven_error {x : Rat} (hx : 0 ≤ x) : |(nearestEven x : Rat) - x| ≤ 1 / 2 := by
  have hn : 0 ≤ x.num := Rat.num_nonneg.mpr hx
  have hd : (0 : Rat) < x.den := by exact_mod_cast x.den_pos
  have hxe : x = (x.num.toNat : Rat) / x.den := by
    conv_lhs => rw [← Rat.num_div_den x]
    congr 1
    exact_mod_cast (Int.toNat_of_nonneg hn).symm
  have hdiv := Nat.div_add_mod x.num.toNat x.den
  have hlt := Nat.mod_lt x.num.toNat x.den_pos
  have key : (x.num.toNat : Rat) = x.den * (x.num.toNat / x.den : Nat) + (x.num.toNat % x.den : Nat) := by
    exact_mod_cast hdiv.symm
  set n := x.num.toNat / x.den
  set m := x.num.toNat % x.den
  have hx2 : x = n + (m : Rat) / x.den := by
    conv_lhs => rw [hxe, key]
    rw [add_div, mul_div_cancel_left₀ _ hd.ne']
  have hm0 : (0 : Rat) ≤ (m : Rat) / x.den := by positivity
  have down : 2 * m ≤ x.den → |(n : Rat) - x| ≤ 1 / 2 := by
    intro h
    have : (m : Rat) / x.den ≤ 1 / 2 := by
      rw [div_le_iff₀ hd]
      have : (2 * m : Rat) ≤ x.den := by exact_mod_cast h
      linarith
    rw [abs_le]
    constructor <;> linarith
  have up : x.den ≤ 2 * m → |((n + 1 : Nat) : Rat) - x| ≤ 1 / 2 := by
    intro h
    have h1 : 1 / 2 ≤ (m : Rat) / x.den := by
      rw [le_div_iff₀ hd]
      have : (x.den : Rat) ≤ 2 * m := by exact_mod_cast h
      linarith
    have h2 : (m : Rat) / x.den ≤ 1 := by
      rw [div_le_one hd]
      exact_mod_cast hlt.le
    rw [abs_le]
    push_cast
    constructor <;> linarith
  have hdef : nearestEven x = if 2 * m < x.den then n else if x.den < 2 * m then n + 1
      else if n % 2 = 0 then n else n + 1 := rfl
  rw [hdef]
  split
  case isTrue h => exact down h.le
  case isFalse h =>
    split
    case isTrue h' => exact up h'.le
    case isFalse h' =>
      split
      · exact down (by omega)
      · exact up (by omega)

end Sys2Proof.Machine
end

