-- ==== Sys2Proof/Laws/Fields.lean ====
section
/-! SUPPORT. The shift-and-mask fields are the slices of R31; the fields of an assembled word; the range test of
R73 in terms of `|q|`. -/

namespace Sys2Proof.Machine

/-- The masked shift of R32 is the slice `r[31:18]`. -/
theorem tcField_eq (r : Frame) : tcField r = (r.extractLsb' 18 14).toNat := by
  simp only [tcField, BitVec.toNat_and, BitVec.toNat_ushiftRight, BitVec.extractLsb'_toNat]
  exact Nat.and_two_pow_sub_one_eq_mod _ 14

/-- The masked shift of R32 is the slice `r[15:4]`. -/
theorem cjField_eq (r : Frame) : cjField r = (r.extractLsb' 4 12).toNat := by
  simp only [cjField, BitVec.toNat_and, BitVec.toNat_ushiftRight, BitVec.extractLsb'_toNat]
  exact Nat.and_two_pow_sub_one_eq_mod _ 12

/-- The masked word of R50 is the slice `r[2:0]`. -/
theorem faultBits_eq (r : Frame) : faultBits r = r.extractLsb' 0 3 := by
  apply BitVec.eq_of_toNat_eq
  simp only [faultBits, BitVec.toNat_setWidth, BitVec.toNat_and, BitVec.extractLsb'_toNat, Nat.shiftRight_zero]
  rw [show (7#32).toNat = 2 ^ 3 - 1 from rfl, Nat.and_two_pow_sub_one_eq_mod]
  omega

@[simp] theorem signBit_assemble (s : Bool) (e f : Nat) : signBit (assemble s e f) = s := by
  simp only [signBit, assemble, BitVec.getLsbD_append]
  simp

theorem fractionField_assemble (s : Bool) {e f : Nat} (hf : f < 2 ^ 52) :
    fractionField (assemble s e f) = f := by
  simp only [fractionField, assemble, BitVec.extractLsb'_toNat, BitVec.toNat_append, Nat.shiftRight_zero,
    BitVec.toNat_ofNat]
  rw [← Nat.shiftLeft_add_eq_or_of_lt (Nat.mod_lt _ (by norm_num)), Nat.shiftLeft_eq]
  omega

theorem exponentField_assemble (s : Bool) {e f : Nat} (he : e < 2 ^ 11) (hf : f < 2 ^ 52) :
    exponentField (assemble s e f) = e := by
  simp only [exponentField, assemble, BitVec.extractLsb'_toNat, BitVec.toNat_append, BitVec.toNat_ofNat]
  rw [← Nat.shiftLeft_add_eq_or_of_lt (Nat.mod_lt _ (by norm_num)),
    ← Nat.shiftLeft_add_eq_or_of_lt (Nat.mod_lt _ (by norm_num)), Nat.shiftLeft_eq, Nat.shiftLeft_eq,
    Nat.shiftRight_eq_div_pow]
  omega

@[simp] theorem signedScaled_eq (s : Bool) (n : Nat) (k : Int) :
    signedScaled s n k = (if s then -(n : Rat) else n) * 2 ^ k := by
  unfold signedScaled
  cases s <;> simp

/-- `floorLog2` decides comparisons with powers of two. -/
theorem natCast_le_floorLog2_iff {q : Rat} (hq : 0 < q) (k : Nat) :
    (k : Int) ≤ floorLog2 q ↔ (2 : Rat) ^ k ≤ q := by
  obtain ⟨lo, hi⟩ := floorLog2_spec hq
  rw [← zpow_natCast]
  constructor
  · intro h
    exact (zpow_le_zpow_right₀ (by norm_num) h).trans lo
  · intro h
    have := (zpow_lt_zpow_iff_right₀ (by norm_num : (1 : Rat) < 2)).mp (lt_of_le_of_lt h hi)
    omega

/-- The magnitude test of R73. -/
theorem atLeast2Pow1024_iff (q : Rat) : atLeast2Pow1024 q = true ↔ (2 : Rat) ^ (1024 : Nat) ≤ |q| := by
  by_cases h0 : q = 0
  · subst h0
    have : (0 : Rat) < 2 ^ (1024 : Nat) := pow_pos (by norm_num) _
    simp only [atLeast2Pow1024, ne_eq, not_true_eq_false, decide_false, Bool.false_and,
      Bool.false_eq_true, abs_zero, false_iff, not_le]
    exact this
  · have key := natCast_le_floorLog2_iff (abs_pos.mpr h0) 1024
    rw [← key]
    simp [atLeast2Pow1024, h0]

end Sys2Proof.Machine
end

