-- ==== Sys2Proof/Laws/Binary64.lean ====
section
/-! SUPPORT. What `enc` gives for a significand and an exponent, what `roundNearest` can deliver, and that `rnd`
keeps the contract of R40 (a) on the normal range. -/

namespace Sys2Proof.Machine

theorem two_zpow_pos (k : Int) : (0 : Rat) < 2 ^ k := zpow_pos (by norm_num) k

theorem two_zpow_mul (a b : Int) : (2 : Rat) ^ a * 2 ^ b = 2 ^ (a + b) := (zpow_add₀ (by norm_num) a b).symm

/-- The power of two just below a number determines its `floorLog2`. -/
theorem floorLog2_eq {q : Rat} {e : Int} (lo : (2 : Rat) ^ e ≤ q) (hi : q < 2 ^ (e + 1)) : floorLog2 q = e := by
  obtain ⟨lo', hi'⟩ := floorLog2_spec (lt_of_lt_of_le (two_zpow_pos e) lo)
  have h1 := (zpow_lt_zpow_iff_right₀ (by norm_num : (1 : Rat) < 2)).mp (lt_of_le_of_lt lo hi')
  have h2 := (zpow_lt_zpow_iff_right₀ (by norm_num : (1 : Rat) < 2)).mp (lt_of_le_of_lt lo' hi)
  omega

/-- A bound on `q` from above bounds its `floorLog2`. -/
theorem floorLog2_lt {q : Rat} {e : Int} (hq : 0 < q) (hi : q < 2 ^ e) : floorLog2 q < e :=
  (zpow_lt_zpow_iff_right₀ (by norm_num : (1 : Rat) < 2)).mp (lt_of_le_of_lt (floorLog2_spec hq).1 hi)

/-- The spacing around a number with a 53-bit significand. -/
theorem spacingExponent_scaled {n : Nat} {e : Int} (he : -1022 ≤ e) (hn : n < 2 ^ 53)
    (h : 2 ^ 52 ≤ n ∨ (e = -1022 ∧ 0 < n)) : spacingExponent ((n : Rat) * 2 ^ (e - 52)) = e := by
  have hn' : (n : Rat) < 2 ^ (53 : Int) := by exact_mod_cast hn
  have hi : (n : Rat) * 2 ^ (e - 52) < 2 ^ (e + 1) := by
    have := mul_lt_mul_of_pos_right hn' (two_zpow_pos (e - 52))
    rwa [two_zpow_mul, show (53 : Int) + (e - 52) = e + 1 by ring] at this
  rcases h with h | ⟨rfl, h0⟩
  · have lo : (2 : Rat) ^ e ≤ n * 2 ^ (e - 52) := by
      have hn2 : (2 : Rat) ^ (52 : Int) ≤ n := by exact_mod_cast h
      have := mul_le_mul_of_nonneg_right hn2 (two_zpow_pos (e - 52)).le
      rwa [two_zpow_mul, show (52 : Int) + (e - 52) = e by ring] at this
    rw [spacingExponent, floorLog2_eq lo hi]
    exact max_eq_left he
  · have pos : (0 : Rat) < n * 2 ^ ((-1022 : Int) - 52) :=
      mul_pos (by exact_mod_cast h0) (two_zpow_pos _)
    have := floorLog2_lt pos hi
    rw [spacingExponent]
    exact max_eq_right (by omega)

/-- `enc` of a signed 53-bit significand at a spacing: the word R39 gives. -/
theorem enc_scaled (s : Bool) {n : Nat} {e : Int} (he : -1022 ≤ e) (he' : e ≤ 1023) (hn : n < 2 ^ 53)
    (h : 2 ^ 52 ≤ n ∨ (e = -1022 ∧ 0 < n)) :
    enc (.val ((if s then -(n : Rat) else n) * 2 ^ (e - 52))) =
      some (if n < 2 ^ 52 then assemble s 0 n else assemble s (e + 1023).toNat (n - 2 ^ 52)) := by
  have hn0 : 0 < n := by omega
  have hnq : (0 : Rat) < n := by exact_mod_cast hn0
  have hp := two_zpow_pos (e - 52)
  set q : Rat := (if s then -(n : Rat) else n) * 2 ^ (e - 52) with hq
  have habs : |q| = n * 2 ^ (e - 52) := by
    rw [hq, abs_mul, abs_of_pos hp]
    cases s <;> simp [abs_of_pos hnq]
  have hq0 : q ≠ 0 := by
    intro h0
    rw [h0, abs_zero] at habs
    exact (mul_pos hnq hp).ne habs
  have hsign : decide (q < 0) = s := by
    cases s with
    | true => simpa [hq] using mul_pos hnq hp
    | false => simpa [hq] using (mul_pos hnq hp).le
  have hspace : spacingExponent (ratAbs q) = e := by
    rw [ratAbs_eq, habs, spacingExponent_scaled he hn h]
  have hsig : ratMul (ratAbs q) (pow2 (52 - e)) = (n : Rat) := by
    rw [ratMul_eq, ratAbs_eq, pow2_eq, habs, mul_assoc, two_zpow_mul,
      show e - 52 + (52 - e) = 0 by ring, zpow_zero, mul_one]
  simp only [enc, hq0, if_false, hspace, hsig, hsign, Rat.num_natCast, Rat.den_natCast, he', and_self, if_true,
    Int.toNat_natCast]
  split <;> rfl

/-- Everything `roundNearest` can deliver for a nonzero number. -/
theorem roundNearest_spec {q : Rat} (hq : q ≠ 0) :
    ∃ n : Nat, roundNearest q = (if q < 0 then -(n : Rat) else n) * 2 ^ (spacingExponent |q| - 52) ∧
      |(n : Rat) - |q| * 2 ^ (52 - spacingExponent |q|)| ≤ 1 / 2 ∧
      n ≤ 2 ^ 53 ∧ (2 ^ 52 ≤ n ∨ spacingExponent |q| = -1022) := by
  have hpos : 0 < |q| := abs_pos.mpr hq
  set e := spacingExponent |q| with he
  set x : Rat := |q| * 2 ^ (52 - e) with hx
  have hx0 : 0 ≤ x := mul_nonneg hpos.le (two_zpow_pos _).le
  have herr := nearestEven_error hx0
  obtain ⟨lo, hi⟩ := floorLog2_spec hpos
  have hfe : floorLog2 |q| ≤ e := le_max_left _ _
  have xhi : x < 2 ^ 53 := by
    have h1 : |q| < 2 ^ (e + 1) := lt_of_lt_of_le hi (zpow_le_zpow_right₀ (by norm_num) (by omega))
    have := mul_lt_mul_of_pos_right h1 (two_zpow_pos (52 - e))
    rw [two_zpow_mul, show e + 1 + (52 - e) = (53 : Nat) by push_cast; ring, zpow_natCast] at this
    exact this
  refine ⟨nearestEven x, ?_, herr, ?_, ?_⟩
  · simp only [roundNearest, hq, if_false, ratAbs_eq, ratMul_eq, pow2_eq, signedScaled_eq, ← he, ← hx,
      decide_eq_true_eq]
  · have h2 : (nearestEven x : Rat) < 2 ^ 53 + 1 := by linarith [(abs_le.mp herr).2]
    have : nearestEven x < 2 ^ 53 + 1 := by exact_mod_cast h2
    omega
  · by_cases h : floorLog2 |q| < -1022
    · exact .inr (max_eq_right h.le)
    · refine .inl ?_
      have hee : e = floorLog2 |q| := max_eq_left (not_lt.mp h)
      have xlo : (2 : Rat) ^ 52 ≤ x := by
        have := mul_le_mul_of_nonneg_right lo (two_zpow_pos (52 - e)).le
        rw [two_zpow_mul, ← hee, show e + (52 - e) = (52 : Nat) by push_cast; ring, zpow_natCast] at this
        exact this
      have h2 : (2 : Rat) ^ 52 - 1 < nearestEven x := by linarith [(abs_le.mp herr).1]
      have : (2 ^ 52 : Nat) < nearestEven x + 1 := by
        have : ((2 ^ 52 : Nat) : Rat) < nearestEven x + 1 := by push_cast; linarith
        exact_mod_cast this
      omega

/-- One rounding is off by at most half the spacing. -/
theorem roundNearest_error {q : Rat} (hq : q ≠ 0) :
    |roundNearest q - q| ≤ 2 ^ (spacingExponent |q| - 53) := by
  obtain ⟨n, hr, herr, -, -⟩ := roundNearest_spec hq
  set e := spacingExponent |q|
  have hp := two_zpow_pos (e - 52)
  have hback : |q| * 2 ^ (52 - e) * 2 ^ (e - 52) = |q| := by
    rw [mul_assoc, two_zpow_mul, show 52 - e + (e - 52) = 0 by ring, zpow_zero, mul_one]
  have key : |(n : Rat) * 2 ^ (e - 52) - abs q| ≤ 2 ^ (e - 53) := by
    have h1 : (n : Rat) * 2 ^ (e - 52) - abs q = ((n : Rat) - |q| * 2 ^ (52 - e)) * 2 ^ (e - 52) := by
      rw [sub_mul, hback]
    rw [h1, abs_mul, abs_of_pos hp]
    calc _ ≤ 1 / 2 * (2 : Rat) ^ (e - 52) := mul_le_mul_of_nonneg_right herr hp.le
      _ = 2 ^ (e - 53) := by
        rw [show (1 / 2 : Rat) = 2 ^ (-1 : Int) by norm_num, two_zpow_mul]
        congr 1
        ring
  rw [hr]
  by_cases h : q < 0
  · rw [abs_of_neg h] at key
    rw [if_pos h, ← abs_neg]
    convert key using 2
    ring
  · rw [abs_of_nonneg (not_lt.mp h)] at key
    rw [if_neg h]
    exact key

/-- A rounding that stays below `2^1024` is a binary64 value. -/
theorem isBinary64_roundNearest {q : Rat} (h : atLeast2Pow1024 (roundNearest q) = false) :
    isBinary64 (roundNearest q) = true := by
  by_cases hq : q = 0
  · subst hq
    rfl
  obtain ⟨n, hr, -, hn, hlow⟩ := roundNearest_spec hq
  set e := spacingExponent |q| with hedef
  have he : -1022 ≤ e := le_max_right _ _
  by_cases hn0 : n = 0
  · have : roundNearest q = 0 := by simp [hr, hn0]
    rw [this]
    rfl
  have hbig : ¬ (2 : Rat) ^ (1024 : Nat) ≤ |roundNearest q| := by
    rw [← atLeast2Pow1024_iff, h]
    exact Bool.false_ne_true
  have habs : |roundNearest q| = n * 2 ^ (e - 52) := by
    rw [hr, abs_mul, abs_of_pos (two_zpow_pos _)]
    split <;> simp
  have ofScaled : ∀ (m : Nat) (f : Int), -1022 ≤ f → m < 2 ^ 53 → (2 ^ 52 ≤ m ∨ (f = -1022 ∧ 0 < m)) →
      roundNearest q = (if q < 0 then -(m : Rat) else m) * 2 ^ (f - 52) → isBinary64 (roundNearest q) = true := by
    intro m f hf hm hml hval
    have hf' : f ≤ 1023 := by
      by_contra hc
      apply hbig
      have hval' : |roundNearest q| = m * 2 ^ (f - 52) := by
        rw [hval, abs_mul, abs_of_pos (two_zpow_pos _)]
        split <;> simp
      rw [hval', ← zpow_natCast]
      have hm2 : (2 : Rat) ^ (52 : Int) ≤ m := by
        rcases hml with hml | ⟨h1, -⟩
        · exact_mod_cast hml
        · omega
      calc (2 : Rat) ^ ((1024 : Nat) : Int) ≤ 2 ^ f := zpow_le_zpow_right₀ (by norm_num) (by push_cast; omega)
        _ = 2 ^ (52 : Int) * 2 ^ (f - 52) := by rw [two_zpow_mul]; congr 1; ring
        _ ≤ m * 2 ^ (f - 52) := mul_le_mul_of_nonneg_right hm2 (two_zpow_pos _).le
    have hs := enc_scaled (decide (q < 0)) hf hf' hm hml
    simp only [decide_eq_true_eq] at hs
    rw [isBinary64, hval, hs]
    rfl
  by_cases htop : n = 2 ^ 53
  · refine ofScaled (2 ^ 52) (e + 1) (by omega) (by norm_num) (.inl le_rfl) ?_
    rw [hr, htop]
    have : ((2 ^ 53 : Nat) : Rat) * 2 ^ (e - 52) = ((2 ^ 52 : Nat) : Rat) * 2 ^ (e + 1 - 52) := by
      rw [show e + 1 - 52 = (e - 52) + 1 by ring, ← two_zpow_mul]
      push_cast
      ring
    split
    · rw [neg_mul, neg_mul, this]
    · exact this
  · exact ofScaled n e he (by omega) (by omega) hr

/-- The largest finite value is one. -/
theorem isBinary64_maxFinite (q : Rat) : isBinary64 (maxFinite q) = true := by
  have hs := enc_scaled (decide (q < 0)) (n := 2 ^ 53 - 1) (e := 1023) (by norm_num) (by norm_num) (by norm_num)
    (.inl (by norm_num))
  rw [isBinary64, maxFinite, signedScaled_eq]
  norm_num at hs ⊢
  rw [hs]
  rfl

/-- `rnd` delivers a binary64 value for every rational. -/
theorem isBinary64_rnd (q : Rat) : isBinary64 (rnd q) = true := by
  unfold rnd
  cases h : atLeast2Pow1024 (roundNearest q) with
  | false => simpa [h] using isBinary64_roundNearest h
  | true =>
    simp only [if_true]
    unfold roundPastMax
    split
    case isTrue hk =>
      simp only [keepsContract, Bool.and_eq_true] at hk
      exact hk.1
    case isFalse => exact isBinary64_maxFinite q

/-- On the normal range one rounding is within `2^-53`, relatively. -/
theorem roundNearest_relative_error {q : Rat} (hq : (2 : Rat) ^ (-1022 : Int) ≤ |q|) :
    |roundNearest q - q| ≤ 2 ^ (-53 : Int) * |q| := by
  have hpos : 0 < |q| := lt_of_lt_of_le (two_zpow_pos _) hq
  obtain ⟨lo, hi⟩ := floorLog2_spec hpos
  have hfl : -1022 ≤ floorLog2 |q| := by
    have := (zpow_lt_zpow_iff_right₀ (by norm_num : (1 : Rat) < 2)).mp (lt_of_le_of_lt hq hi)
    omega
  have he : spacingExponent |q| = floorLog2 |q| := max_eq_left hfl
  calc |roundNearest q - q| ≤ 2 ^ (floorLog2 |q| - 53) := he ▸ roundNearest_error (abs_pos.mp hpos)
    _ = 2 ^ (-53 : Int) * 2 ^ floorLog2 |q| := by rw [two_zpow_mul]; congr 1; ring
    _ ≤ 2 ^ (-53 : Int) * |q| := mul_le_mul_of_nonneg_left lo (two_zpow_pos _).le

/-- The largest finite value, signed. -/
theorem maxFinite_eq (q : Rat) :
    maxFinite q = if q < 0 then -((2 ^ 53 - 1) * 2 ^ (971 : Int)) else (2 ^ 53 - 1) * 2 ^ (971 : Int) := by
  rw [maxFinite, signedScaled_eq]
  generalize (2 : Rat) ^ (971 : Int) = u
  by_cases h : q < 0 <;> norm_num [h]

theorem abs_maxFinite (q : Rat) : |maxFinite q| = (2 ^ 53 - 1) * 2 ^ (971 : Int) := by
  have h := mul_nonneg (show (0 : Rat) ≤ 2 ^ 53 - 1 by norm_num) (two_zpow_pos 971).le
  rw [maxFinite_eq]
  split
  · rw [abs_neg, abs_of_nonneg h]
  · exact abs_of_nonneg h

/-- The contract R40 (a) for one value. -/
theorem keepsContract_iff (v q : Rat) :
    keepsContract v q = true ↔ isBinary64 v = true ∧ |v - q| ≤ 1 / 1000000 * |q| := by
  have htol : Config.tol = 1 / 1000000 := by rw [Config.tol, Rat.mkRat_eq_div]; norm_num
  simp [keepsContract, htol]

/-- `rnd` keeps the contract wherever `roundNearest` and the largest finite value do. -/
theorem keepsContract_rnd_of {q : Rat}
    (near : atLeast2Pow1024 (roundNearest q) = false → |roundNearest q - q| ≤ 1 / 1000000 * |q|)
    (past : atLeast2Pow1024 (roundNearest q) = true → keepsContract (maxFinite q) q = true) :
    keepsContract (rnd q) q = true := by
  unfold rnd
  cases h : atLeast2Pow1024 (roundNearest q) with
  | true =>
    simp only [if_true]
    unfold roundPastMax
    split
    case isTrue hk => exact hk
    case isFalse => exact past h
  | false =>
    simp only [Bool.false_eq_true, if_false]
    exact (keepsContract_iff _ _).mpr ⟨isBinary64_roundNearest h, near h⟩

/-- The largest finite value is within `TOL` wherever rounding would leave the format (log entry 8). -/
theorem maxFinite_keepsContract {q : Rat} (hlt : |q| < (2 : Rat) ^ (1024 : Nat))
    (hr : (2 : Rat) ^ (1024 : Nat) ≤ |roundNearest q|) : keepsContract (maxFinite q) q = true := by
  have hq : q ≠ 0 := by
    rintro rfl
    have h0 : roundNearest 0 = 0 := rfl
    rw [h0, abs_zero] at hr
    exact absurd hr (not_le.mpr (pow_pos (by norm_num) _))
  have hpos : 0 < |q| := abs_pos.mpr hq
  have he : spacingExponent |q| ≤ 1023 := by
    have := floorLog2_lt (e := 1024) hpos (by rw [← zpow_natCast] at hlt; exact_mod_cast hlt)
    exact max_le (by omega) (by norm_num)
  have herr : |roundNearest q - q| ≤ 2 ^ (970 : Int) :=
    (roundNearest_error hq).trans (zpow_le_zpow_right₀ (by norm_num) (by omega))
  set u : Rat := 2 ^ (971 : Int) with hu
  have hu0 : 0 < u := two_zpow_pos _
  have h970 : (2 : Rat) ^ (970 : Int) = u / 2 := by
    rw [hu, show (971 : Int) = 970 + 1 by norm_num, ← two_zpow_mul]
    ring
  have h1024 : (2 : Rat) ^ (1024 : Nat) = 2 ^ (53 : Nat) * u := by
    rw [hu, ← zpow_natCast, ← zpow_natCast, two_zpow_mul]
    rfl
  have hm : maxFinite q = if q < 0 then -(9007199254740991 * u) else 9007199254740991 * u := by
    rw [maxFinite_eq, ← hu]
    norm_num
  rw [h970] at herr
  rw [h1024, show (2 : Rat) ^ (53 : Nat) = 9007199254740992 by norm_num] at hr hlt
  clear_value u
  clear hu h970 h1024
  have hlow : 9007199254740992 * u - u / 2 ≤ |q| := by
    have := abs_sub_abs_le_abs_sub (roundNearest q) q
    linarith
  have hdiff : |maxFinite q - q| ≤ u := by
    rw [hm, abs_le]
    by_cases h : q < 0
    · rw [abs_of_neg h] at hlow hlt
      rw [if_pos h]
      constructor <;> linarith
    · rw [abs_of_nonneg (not_lt.mp h)] at hlow hlt
      rw [if_neg h]
      constructor <;> linarith
  refine (keepsContract_iff _ _).mpr ⟨isBinary64_maxFinite q, ?_⟩
  linarith

/-- From `10^6 * 2^-1075` up to `2^1024` in magnitude the model's `RND` keeps the bound of R40 (a), whatever the
free value is. -/
theorem keepsContract_rnd {q : Rat} (hlo : 10 ^ 6 * (2 : Rat) ^ (-1075 : Int) ≤ |q|)
    (hhi : |q| < (2 : Rat) ^ (1024 : Nat)) : keepsContract (rnd q) q = true := by
  refine keepsContract_rnd_of (fun _ => ?_) fun h => maxFinite_keepsContract hhi ((atLeast2Pow1024_iff _).mp h)
  by_cases hn : (2 : Rat) ^ (-1022 : Int) ≤ |q|
  · exact (roundNearest_relative_error hn).trans (mul_le_mul_of_nonneg_right (by norm_num) (abs_nonneg q))
  · have hpos : 0 < |q| := lt_of_lt_of_le (mul_pos (by norm_num) (two_zpow_pos _)) hlo
    have he : spacingExponent |q| = -1022 := max_eq_right (floorLog2_lt hpos (not_le.mp hn)).le
    have := roundNearest_error (abs_pos.mp hpos)
    rw [he, show (-1022 : Int) - 53 = -1075 by norm_num] at this
    linarith

/-- A finite binary64 value is an integer multiple of the spacing around it, with a 53-bit significand. -/
theorem isBinary64_shape {v : Rat} (h : isBinary64 v = true) :
    ∃ (z e : Int), v = z * 2 ^ (e - 52) ∧ |z| < 2 ^ 53 ∧ -1022 ≤ e ∧ e ≤ 1023 := by
  by_cases hv : v = 0
  · exact ⟨0, 0, by simp [hv], by norm_num, by norm_num, by norm_num⟩
  have hpos : 0 < |v| := abs_pos.mpr hv
  set e := spacingExponent |v| with he
  have hfe : floorLog2 |v| ≤ e := le_max_left _ _
  have hlow : -1022 ≤ e := le_max_right _ _
  set n : Rat := |v| * 2 ^ (52 - e) with hn
  have hcond : n.den = 1 ∧ e ≤ 1023 := by
    by_contra hc
    simp only [isBinary64, enc, hv, if_false, ratAbs_eq, ratMul_eq, pow2_eq, ← he, ← hn, hc] at h
    cases h
  have hni : n = n.num := (Rat.coe_int_num_of_den_eq_one hcond.1).symm
  have hback : |v| = n * 2 ^ (e - 52) := by
    rw [hn, mul_assoc, two_zpow_mul, show 52 - e + (e - 52) = 0 by ring, zpow_zero, mul_one]
  have hn0 : 0 ≤ n := mul_nonneg hpos.le (two_zpow_pos _).le
  have hlt : n < 2 ^ 53 := by
    have h1 : |v| < 2 ^ (e + 1) :=
      lt_of_lt_of_le (floorLog2_spec hpos).2 (zpow_le_zpow_right₀ (by norm_num) (by omega))
    have := mul_lt_mul_of_pos_right h1 (two_zpow_pos (52 - e))
    rwa [two_zpow_mul, show e + 1 + (52 - e) = (53 : Nat) by push_cast; ring, zpow_natCast] at this
  have hz : |n.num| < 2 ^ 53 := by
    rw [abs_of_nonneg (Rat.num_nonneg.mpr hn0)]
    rw [hni] at hlt
    exact_mod_cast hlt
  rcases abs_choice v with hs | hs
  · exact ⟨n.num, e, by rw [← hs, hback, ← hni], hz, hlow, hcond.2⟩
  · refine ⟨-n.num, e, ?_, by rwa [abs_neg], hlow, hcond.2⟩
    rw [← neg_neg v, ← hs, hback]
    push_cast
    rw [← hni, neg_mul]

/-- `roundNearest q` is at least as near as any multiple of the spacing around `q`. -/
theorem roundNearest_le_grid {q : Rat} (hq : q ≠ 0) (z : Int) :
    |roundNearest q - q| ≤ |z * 2 ^ (spacingExponent |q| - 52) - q| := by
  obtain ⟨n, hr, herr, -, -⟩ := roundNearest_spec hq
  set e := spacingExponent |q|
  set u : Rat := 2 ^ (e - 52) with hu
  have hu0 : 0 < u := two_zpow_pos _
  set x : Rat := |q| * 2 ^ (52 - e) with hx
  have hback : |q| = x * u := by
    rw [hx, hu, mul_assoc, two_zpow_mul, show 52 - e + (e - 52) = 0 by ring, zpow_zero, mul_one]
  have grid : ∀ m : Int, |(n : Rat) - x| ≤ |(m : Rat) - x| := by
    intro m
    by_cases hm : m = n
    · rw [hm]
      push_cast
      exact le_rfl
    · have h1 : (1 : Int) ≤ |m - n| := Int.one_le_abs (sub_ne_zero.mpr hm)
      have h2 : (1 : Rat) ≤ |(m : Rat) - n| := by exact_mod_cast h1
      have h3 := abs_sub_le (m : Rat) x n
      rw [abs_sub_comm x] at h3
      linarith
  have scale : ∀ y : Rat, |y * u - x * u| = |y - x| * u := fun y => by
    rw [← sub_mul, abs_mul, abs_of_pos hu0]
  by_cases h : q < 0
  · rw [abs_of_neg h] at hback
    have hqv : q = -(x * u) := by linarith
    have key : ∀ y : Rat, |y * u - q| = |(-y) - x| * u := fun y => by
      rw [← scale, hqv, ← abs_neg]
      congr 1
      ring
    rw [hr, if_pos h, key, key, neg_neg]
    have := grid (-z)
    push_cast at this
    exact mul_le_mul_of_nonneg_right this hu0.le
  · rw [abs_of_nonneg (not_lt.mp h)] at hback
    rw [hr, if_neg h, hback, scale, scale]
    exact mul_le_mul_of_nonneg_right (grid z) hu0.le

/-- No finite binary64 value is nearer than `roundNearest q`. -/
theorem roundNearest_nearest (q : Rat) {v : Rat} (hv : isBinary64 v = true) :
    |roundNearest q - q| ≤ |v - q| := by
  by_cases hq : q = 0
  · subst hq
    rw [show roundNearest 0 = 0 from rfl, sub_zero, abs_zero]
    exact abs_nonneg _
  have hpos : 0 < |q| := abs_pos.mpr hq
  obtain ⟨z, f, rfl, hz, hf, -⟩ := isBinary64_shape hv
  set e := spacingExponent |q| with he
  by_cases hfe : e ≤ f
  · have hv' : (z : Rat) * 2 ^ (f - 52) = (z * 2 ^ (f - e).toNat : Int) * 2 ^ (e - 52) := by
      push_cast
      rw [mul_assoc, ← zpow_natCast (2 : Rat) (f - e).toNat, Int.toNat_of_nonneg (by omega), two_zpow_mul]
      congr 2
      ring
    rw [hv']
    exact roundNearest_le_grid hq _
  · have hee : e = floorLog2 |q| := by
      rw [he, spacingExponent] at hfe ⊢
      exact max_eq_left (by omega)
    have lo : (2 : Rat) ^ e ≤ |q| := hee ▸ (floorLog2_spec hpos).1
    have hv2 : |(z : Rat) * 2 ^ (f - 52)| ≤ 2 ^ e := by
      have hz' : |(z : Rat)| ≤ 2 ^ (53 : Int) := by exact_mod_cast hz.le
      rw [abs_mul, abs_of_pos (two_zpow_pos (f - 52))]
      calc _ ≤ (2 : Rat) ^ (53 : Int) * 2 ^ (f - 52) := mul_le_mul_of_nonneg_right hz' (two_zpow_pos _).le
        _ = 2 ^ (f + 1) := by rw [two_zpow_mul]; congr 1; ring
        _ ≤ 2 ^ e := zpow_le_zpow_right₀ (by norm_num) (by omega)
    have htri := abs_sub_abs_le_abs_sub q ((z : Rat) * 2 ^ (f - 52))
    rw [abs_sub_comm] at htri
    have hpow : (4503599627370496 : Rat) * 2 ^ (e - 52) = 2 ^ e := by
      rw [show (4503599627370496 : Rat) = 2 ^ (52 : Int) by norm_num, two_zpow_mul]
      congr 1
      ring
    by_cases h : q < 0
    · have hg := roundNearest_le_grid hq (-2 ^ 52)
      push_cast at hg
      rw [neg_mul, ← he, hpow] at hg
      rw [abs_of_neg h] at lo htri
      rw [abs_of_nonneg (show 0 ≤ -2 ^ e - q by linarith)] at hg
      linarith
    · have hg := roundNearest_le_grid hq (2 ^ 52)
      push_cast at hg
      rw [← he, hpow] at hg
      rw [abs_of_nonneg (not_lt.mp h)] at lo htri
      rw [abs_of_nonpos (show 2 ^ e - q ≤ 0 by linarith)] at hg
      linarith

/-- No finite binary64 value is larger in magnitude. -/
theorem abs_le_maxFinite {v : Rat} (hv : isBinary64 v = true) (q : Rat) : |v| ≤ |maxFinite q| := by
  obtain ⟨z, e, rfl, hz, -, he⟩ := isBinary64_shape hv
  have hz' : |(z : Rat)| ≤ 2 ^ 53 - 1 := by exact_mod_cast Int.le_sub_one_of_lt hz
  rw [abs_maxFinite, abs_mul, abs_of_pos (two_zpow_pos _)]
  exact mul_le_mul hz' (zpow_le_zpow_right₀ (by norm_num) (by omega)) (two_zpow_pos _).le (by norm_num)

/-- The largest finite value has the sign of `q`. -/
theorem abs_maxFinite_sub (q : Rat) : |maxFinite q - q| = abs (|maxFinite q| - |q|) := by
  have hsign : maxFinite q = if q < 0 then -|maxFinite q| else |maxFinite q| := by
    rw [abs_maxFinite]
    exact maxFinite_eq q
  generalize maxFinite q = m at hsign ⊢
  split at hsign
  case isTrue h =>
    rw [abs_of_neg h, ← abs_neg]
    congr 1
    linarith
  case isFalse h => rw [abs_of_nonneg (not_lt.mp h), ← hsign]

/-- Where rounding leaves the format the largest finite value is at least as near as any other. -/
theorem maxFinite_nearest {q v : Rat} (hr : atLeast2Pow1024 (roundNearest q) = true)
    (hv : isBinary64 v = true) : |maxFinite q - q| ≤ |v - q| := by
  have hr' := (atLeast2Pow1024_iff _).mp hr
  have hM := abs_maxFinite q
  have hlt : |maxFinite q| < 2 ^ (1024 : Nat) := by
    rw [hM, show (2 : Rat) ^ (1024 : Nat) = 2 ^ 53 * 2 ^ (971 : Int) by
      rw [← zpow_natCast, ← zpow_natCast, two_zpow_mul]; rfl]
    exact mul_lt_mul_of_pos_right (by norm_num) (two_zpow_pos _)
  have hnear := roundNearest_nearest q (isBinary64_maxFinite q)
  have h1 := abs_sub_abs_le_abs_sub (roundNearest q) q
  have h2 := abs_sub_abs_le_abs_sub q v
  rw [abs_sub_comm q] at h2
  have h3 := abs_le_maxFinite hv q
  have hdiff := abs_maxFinite_sub q
  have hbelow := hlt.trans_le hr'
  clear hlt hr' hM
  rcases le_total |q| |maxFinite q| with hle | hle
  · rw [abs_of_nonneg (sub_nonneg.mpr hle)] at hdiff
    linarith
  · rw [abs_of_nonpos (sub_nonpos.mpr hle)] at hdiff
    linarith

/-- The model's `RND` keeps the contract of R40 (a), whatever the free value is: a finite binary64 value for every
rational, and within `TOL` wherever a finite binary64 value is. -/
theorem conforming_rnd : Conforming rnd := by
  refine ⟨rfl, isBinary64_rnd, fun q v h => ?_⟩
  obtain ⟨hv, hvq⟩ := (keepsContract_iff _ _).mp h
  exact keepsContract_rnd_of (fun _ => (roundNearest_nearest q hv).trans hvq) fun hr =>
    (keepsContract_iff _ _).mpr ⟨isBinary64_maxFinite q, (maxFinite_nearest hr hv).trans hvq⟩

end Sys2Proof.Machine
end

