-- ==== Sys2Proof/Laws/Engine.lean ====
section
/-! SUPPORT. What the pieces of the linearisation engine, LINEARIZE and the operand decoding can do, said once. -/

namespace Sys2Proof.Machine

/-- A word has no temperature exactly when it is an infinity (R39, R73). -/
theorem dec_eq_none_iff (w : Word64) : dec w = none ↔ isInfinity w = true := by
  simp only [dec, isInfinity, Bool.and_eq_true, beq_iff_eq]
  by_cases h1 : exponentField w = 2047
  · by_cases h2 : fractionField w = 0 <;> simp [h1, h2]
  · by_cases h2 : exponentField w = 0
    · by_cases h3 : fractionField w = 0 <;> simp [h2, h3]
    · simp [h1, h2]

/-- The four ranges of R65. -/
theorem selectTable_cases (v : Rat) :
    (v < 0 ∧ selectTable v = some tableNeg) ∨
    (0 ≤ v ∧ v < 20644 / 1000 ∧ selectTable v = some tableMid) ∨
    (20644 / 1000 ≤ v ∧ v < 54886 / 1000 ∧ selectTable v = some tableHi) ∨
    (54886 / 1000 ≤ v ∧ selectTable v = none) := by
  have h1 : mkRat 20644 1000 = 20644 / 1000 := by rw [Rat.mkRat_eq_div]; norm_num
  have h2 : mkRat 54886 1000 = 54886 / 1000 := by rw [Rat.mkRat_eq_div]; norm_num
  simp only [selectTable, h1, h2]
  by_cases a : v < 0
  · simp [a]
  · by_cases b : v < 20644 / 1000
    · exact .inr (.inl ⟨not_lt.mp a, b, by simp [a, b]⟩)
    · by_cases c : v < 54886 / 1000
      · exact .inr (.inr (.inl ⟨not_lt.mp b, c, by simp [a, b, c]⟩))
      · exact .inr (.inr (.inr ⟨not_lt.mp c, by simp [a, b, c]⟩))

/-- Everything LINEARIZE can make of two temperatures (R60, R61, R70, R73). -/
theorem linearizeTemp_cases (R : Rat → Rat) (cj tc : Temp) :
    ((cj = .fault ∨ tc = .fault) ∧ linearizeTemp R cj tc = some .fault) ∨
    (∃ c t, cj = .val c ∧ tc = .val t ∧
      ((corrected (vtotal c t) = none ∧ linearizeTemp R cj tc = some .fault) ∨
       ∃ q, corrected (vtotal c t) = some q ∧
        ((atLeast2Pow1024 q = true ∧ linearizeTemp R cj tc = none) ∨
         (atLeast2Pow1024 q = false ∧ linearizeTemp R cj tc = some (.val (R q)))))) := by
  cases cj with
  | fault => exact .inl ⟨.inl rfl, rfl⟩
  | val c =>
    cases tc with
    | fault => exact .inl ⟨.inr rfl, rfl⟩
    | val t =>
      refine .inr ⟨c, t, rfl, rfl, ?_⟩
      simp only [linearizeTemp]
      cases corrected (vtotal c t) with
      | none => exact .inl ⟨rfl, rfl⟩
      | some q => cases hq : atLeast2Pow1024 q <;> simp [hq]

/-- LINEARIZE on admitted operand words answers what `linearizeTemp` gives, or is refused where it gives nothing. -/
theorem execLinearize_of_dec {a b : Word64} {cj tc : Temp} (ha : dec a = some cj) (hb : dec b = some tc)
    (s : State) :
    (∀ t, linearizeTemp rnd cj tc = some t → execLinearize a b s = .next (respond (.temp t) s)) ∧
    (linearizeTemp rnd cj tc = none → execLinearize a b s = .refused .resultBeyondBinary64) := by
  constructor
  · intro t h
    simp [execLinearize, ha, hb, h]
  · intro h
    simp [execLinearize, ha, hb, h]

/-- LINEARIZE on an infinite operand word. -/
theorem execLinearize_of_infinity {a b : Word64} (h : dec a = none ∨ dec b = none) (s : State) :
    execLinearize a b s = .refused .infiniteOperand := by
  unfold execLinearize
  rcases h with h | h
  · rw [h]
  · rw [h]
    cases dec a <;> rfl

@[simp] theorem fahrenheit_eq (c : Rat) : fahrenheit c = c * (9 / 5) + 32 := by
  have h : mkRat 9 5 = 9 / 5 := by rw [Rat.mkRat_eq_div]; norm_num
  simp [fahrenheit, h]

end Sys2Proof.Machine
end

