-- ==== Sys2Proof/Laws/State.lean ====
section
/-! SUPPORT. One lemma per field per update of State. -/

namespace Sys2Proof.Machine

variable (s : State)

@[simp] theorem reset_phase : State.reset.phase = .idle := rfl
@[simp] theorem reset_rsp : State.reset.rsp = none := rfl
@[simp] theorem reset_host : State.reset.host = [] := rfl
@[simp] theorem reset_acquirer : State.reset.acquirer = [] := rfl
@[simp] theorem reset_rst : State.reset.rst = [] := rfl

@[simp] theorem respond_phase (r : Response) : (respond r s).phase = .idle := rfl
@[simp] theorem respond_rsp (r : Response) : (respond r s).rsp = some r := rfl
@[simp] theorem respond_host (r : Response) : (respond r s).host = s.host := rfl
@[simp] theorem respond_acquirer (r : Response) : (respond r s).acquirer = s.acquirer := rfl
@[simp] theorem respond_rst (r : Response) : (respond r s).rst = s.rst := rfl

@[simp] theorem quiet_phase : (quiet s).phase = s.phase := rfl
@[simp] theorem quiet_rsp : (quiet s).rsp = none := rfl
@[simp] theorem quiet_host : (quiet s).host = s.host := rfl
@[simp] theorem quiet_acquirer : (quiet s).acquirer = s.acquirer := rfl
@[simp] theorem quiet_rst : (quiet s).rst = s.rst := rfl

@[simp] theorem requestFrame_phase (op : ReadOp) : (requestFrame op s).phase = .waitFetch op := rfl
@[simp] theorem requestFrame_rsp (op : ReadOp) : (requestFrame op s).rsp = none := rfl
@[simp] theorem requestFrame_host (op : ReadOp) : (requestFrame op s).host = s.host := rfl
@[simp] theorem requestFrame_acquirer (op : ReadOp) : (requestFrame op s).acquirer = s.acquirer := rfl
@[simp] theorem requestFrame_rst (op : ReadOp) : (requestFrame op s).rst = s.rst := rfl

@[simp] theorem hostMove_nil : hostMove [] = [] := rfl
@[simp] theorem hostMove_presented (c : Command) (l : List Presentation) :
    hostMove (⟨0, c⟩ :: l) = ⟨0, c⟩ :: l := rfl
@[simp] theorem hostMove_coming (d : Nat) (c : Command) (l : List Presentation) :
    hostMove (⟨d + 1, c⟩ :: l) = ⟨d, c⟩ :: l := rfl

/-- The host's move loses no command and changes none. -/
@[simp] theorem hostMove_cmds (l : List Presentation) : (hostMove l).map (·.cmd) = l.map (·.cmd) := by
  rcases l with _ | ⟨⟨_ | d, c⟩, l⟩ <;> rfl

@[simp] theorem advanceInputs_phase : (advanceInputs s).phase = s.phase := rfl
@[simp] theorem advanceInputs_rsp : (advanceInputs s).rsp = s.rsp := rfl
@[simp] theorem advanceInputs_host : (advanceInputs s).host = hostMove s.host := rfl
@[simp] theorem advanceInputs_acquirer : (advanceInputs s).acquirer = s.acquirer := rfl
@[simp] theorem advanceInputs_rst : (advanceInputs s).rst = s.rst.tail := rfl

@[simp] theorem resetMove_phase : (resetMove s).phase = .idle := rfl
@[simp] theorem resetMove_rsp : (resetMove s).rsp = none := rfl
@[simp] theorem resetMove_host : (resetMove s).host = s.host := rfl
@[simp] theorem resetMove_acquirer : (resetMove s).acquirer = abandonFetch s.phase s.acquirer := rfl
@[simp] theorem resetMove_rst : (resetMove s).rst = s.rst := rfl

@[simp] theorem takeCommand_phase (o : Operation) : (takeCommand o s).phase = .busy o := rfl
@[simp] theorem takeCommand_rsp (o : Operation) : (takeCommand o s).rsp = none := rfl
@[simp] theorem takeCommand_host (o : Operation) : (takeCommand o s).host = s.host.tail := rfl
@[simp] theorem takeCommand_acquirer (o : Operation) : (takeCommand o s).acquirer = s.acquirer := rfl
@[simp] theorem takeCommand_rst (o : Operation) : (takeCommand o s).rst = s.rst := rfl

@[simp] theorem holdReset_head (l : List Bool) : (holdReset l).head?.getD false = false := by
  cases l with
  | nil => rfl
  | cons b l => cases b <;> rfl

@[simp] theorem holdReset_tail (l : List Bool) : (holdReset l).tail = l.tail := by
  cases l with
  | nil => rfl
  | cons b l => cases b <;> rfl

@[simp] theorem placeCommand_rsp (c : Command) : (placeCommand c s).rsp = s.rsp := by
  unfold placeCommand; cases admittedOperation c <;> rfl
@[simp] theorem placeCommand_acquirer (c : Command) : (placeCommand c s).acquirer = s.acquirer := by
  unfold placeCommand; cases admittedOperation c <;> rfl
@[simp] theorem placeCommand_rst (c : Command) : (placeCommand c s).rst = holdReset s.rst := by
  unfold placeCommand; cases admittedOperation c <;> rfl

@[simp] theorem resetNow_placeCommand (c : Command) : resetNow (placeCommand c s) = false := by simp [resetNow]

@[simp] theorem abandonFetch_idle (l : List FetchAnswer) : abandonFetch .idle l = l := rfl
@[simp] theorem abandonFetch_busy (o : Operation) (l : List FetchAnswer) : abandonFetch (.busy o) l = l := rfl
@[simp] theorem abandonFetch_waitFetch (op : ReadOp) (l : List FetchAnswer) :
    abandonFetch (.waitFetch op) l = l.tail := rfl

end Sys2Proof.Machine
end

