-- ==== Sys2Proof/Laws/Ops.lean ====
section
/-! SUPPORT. What each shared move can do, said once; and what a step is in each phase. -/

namespace Sys2Proof.Machine

/-- The frame channel answers, counts a delay down, or stays silent. -/
theorem fetch_cases (s : State) :
    (∃ r k, s.acquirer = .answer 0 r :: k ∧ fetch s = (some r, { s with acquirer := k })) ∨
    (∃ d r k, s.acquirer = .answer (d + 1) r :: k ∧
      fetch s = (none, { s with acquirer := .answer d r :: k })) ∨
    ((s.acquirer = [] ∨ ∃ k, s.acquirer = .never :: k) ∧ fetch s = (none, s)) := by
  unfold fetch
  rcases h : s.acquirer with _ | ⟨_ | _, k⟩
  · simp
  · rename_i d r
    cases d <;> simp
  · simp

/-- Everything the template of R80 can do. -/
theorem readOperation_cases (op : ReadOp) (f : Frame → Response) (s : State) :
    (s.phase ≠ .waitFetch op ∧ readOperation op f s = .next (requestFrame op s)) ∨
    (s.phase = .waitFetch op ∧
      ((∃ r k, s.acquirer = .answer 0 r :: k ∧
          readOperation op f s = .next (respond (f r) { s with acquirer := k })) ∨
       (∃ d r k, s.acquirer = .answer (d + 1) r :: k ∧
          readOperation op f s = .next (quiet { s with acquirer := .answer d r :: k })) ∨
       ((s.acquirer = [] ∨ ∃ k, s.acquirer = .never :: k) ∧
          readOperation op f s = .next (quiet s)))) := by
  by_cases hp : s.phase = .waitFetch op
  · refine .inr ⟨hp, ?_⟩
    rw [show readOperation op f s = match fetch s with
        | (some r, t) => .next (respond (f r) t)
        | (none, t) => .next (quiet t) from if_pos hp]
    rcases fetch_cases s with ⟨r, k, ha, hf⟩ | ⟨d, r, k, ha, hf⟩ | ⟨ha, hf⟩
    · exact .inl ⟨r, k, ha, by simp [hf]⟩
    · exact .inr (.inl ⟨d, r, k, ha, by simp [hf]⟩)
    · exact .inr (.inr ⟨ha, by simp [hf]⟩)
  · exact .inl ⟨hp, by simp [readOperation, hp]⟩

@[simp] theorem operation_instr (o : Operation) : o.instr.operation = some o := by cases o <;> rfl

/-- Only the reserved row is no operation. -/
theorem instr_of_operation {i : Instr} {o : Operation} (h : i.operation = some o) : o.instr = i := by
  cases i <;> simp only [Instr.operation, Option.some.injEq, reduceCtorEq] at h <;> subst h <;> rfl

/-- What TCFD accepts for a command: the operation it selects, when it is admitted. -/
theorem admittedOperation_eq_some_iff {c : Command} {o : Operation} :
    admittedOperation c = some o ↔ decodeCommand c = o.instr ∧ o.instr.wellFormed = true := by
  unfold admittedOperation
  constructor
  · intro h
    split at h
    case isTrue hw =>
      have := instr_of_operation h
      exact ⟨this.symm, this ▸ hw⟩
    case isFalse => cases h
  · rintro ⟨h, hw⟩
    simp [h, hw]

/-- A command that is not accepted is not admitted. -/
theorem admittedOperation_eq_none_iff {c : Command} : admittedOperation c = none ↔ (decodeCommand c).wellFormed = false := by
  unfold admittedOperation
  cases hw : (decodeCommand c).wellFormed with
  | false => simp
  | true =>
    cases hi : decodeCommand c <;> simp [Instr.operation]
    rw [hi] at hw
    cases hw

/-- The command port carries the head of the host's list when its wait is over. -/
theorem cmdPort_eq_some_iff {s : State} {c : Command} : s.cmdPort = some c ↔ ∃ k, s.host = ⟨0, c⟩ :: k := by
  unfold State.cmdPort
  rcases s.host with _ | ⟨⟨_ | d, c'⟩, k⟩ <;> simp

@[simp] theorem operationsOf_hostMove (l : List Presentation) : operationsOf (hostMove l) = operationsOf l := by
  rcases l with _ | ⟨⟨_ | d, c⟩, l⟩ <;> rfl

/-- In `Idle` the command on the port is accepted or refused, or nothing is presented. -/
theorem acceptCommand_cases (ex : Instr → State → Host.Outcome State Fault Refusal) (port : Option Command)
    (s : State) :
    (∃ c o, port = some c ∧ decodeCommand c = o.instr ∧ o.instr.wellFormed = true ∧
      acceptCommand ex port s = .next (takeCommand o s)) ∨
    (∃ c, port = some c ∧ (decodeCommand c).wellFormed = false ∧
      acceptCommand ex port s = ex (decodeCommand c) s) ∨
    (port = none ∧ acceptCommand ex port s = .next (quiet s)) := by
  unfold acceptCommand
  cases port with
  | none => exact .inr (.inr ⟨rfl, rfl⟩)
  | some c =>
    cases ha : admittedOperation c with
    | some o =>
      obtain ⟨hd, hw⟩ := admittedOperation_eq_some_iff.mp ha
      exact .inl ⟨c, o, rfl, hd, hw, by simp [ha]⟩
    | none => exact .inr (.inl ⟨c, rfl, admittedOperation_eq_none_iff.mp ha, by simp [ha]⟩)

/-- The item a read operation returns from its frame. -/
def readResponse : ReadOp → Frame → Response
  | .rdtc => rdtcResponse
  | .rdcj => rdcjResponse
  | .rdf => rdfResponse
  | .rdflt => rdfltResponse
  | .rdraw => rdrawResponse

/-- Every read operation is the template of R80. -/
theorem exec_readOp (op : ReadOp) (s : State) :
    exec op.instr s = readOperation op (readResponse op) s := by cases op <;> rfl

/-- The transaction-level response of a read operation. -/
theorem responseOf_readOp (op : ReadOp) (r : Frame) :
    responseOf op.instr r = some (readResponse op r) := by cases op <;> rfl

@[simp] theorem fetches_readOp (op : ReadOp) : fetches op.instr = true := by cases op <;> rfl

/-- An operation fetches exactly when it is one of the five read operations. -/
theorem fetches_iff (i : Instr) : fetches i = true ↔ ∃ op : ReadOp, i = op.instr := by
  constructor
  · cases i <;> simp only [fetches, reduceCtorEq, false_implies, true_implies]
    exacts [⟨.rdtc, rfl⟩, ⟨.rdcj, rfl⟩, ⟨.rdf, rfl⟩, ⟨.rdflt, rfl⟩, ⟨.rdraw, rfl⟩]
  · rintro ⟨op, rfl⟩
    exact fetches_readOp op

/-- An operation without a fetch answers its transaction-level response at once, or is refused for want of one. -/
theorem exec_of_not_fetches {i : Instr} (h : fetches i = false) (s : State) (r : Frame) :
    (∃ x, responseOf i r = some x ∧ exec i s = .next (respond x s)) ∨
    (responseOf i r = none ∧ ∃ ρ, exec i s = .refused ρ) := by
  cases i with
  | decode q => exact .inl ⟨_, rfl, rfl⟩
  | reserved => exact .inr ⟨rfl, _, rfl⟩
  | linearize a b =>
    simp only [responseOf, exec, execLinearize]
    cases dec a with
    | none => exact .inr ⟨by simp, _, rfl⟩
    | some cj =>
      cases dec b with
      | none => exact .inr ⟨by simp, _, rfl⟩
      | some tc =>
        simp only
        cases linearizeTemp rnd cj tc with
        | none => exact .inr ⟨by simp, _, rfl⟩
        | some t => exact .inl ⟨.temp t, by simp, rfl⟩
  | rdtc => simp [fetches] at h
  | rdcj => simp [fetches] at h
  | rdf => simp [fetches] at h
  | rdflt => simp [fetches] at h
  | rdraw => simp [fetches] at h

/-- No operation touches the inputs of host and platform. -/
theorem exec_frame {i : Instr} {s t : State} (h : exec i s = .next t) : t.host = s.host ∧ t.rst = s.rst := by
  cases hf : fetches i with
  | true =>
    obtain ⟨op, rfl⟩ := (fetches_iff i).mp hf
    rw [exec_readOp] at h
    rcases readOperation_cases op (readResponse op) s with
      ⟨-, e⟩ | ⟨-, ⟨r, k, -, e⟩ | ⟨d, r, k, -, e⟩ | ⟨-, e⟩⟩ <;> (rw [e] at h; cases h; exact ⟨rfl, rfl⟩)
  | false =>
    rcases exec_of_not_fetches hf s 0#32 with ⟨x, -, e⟩ | ⟨-, ρ, e⟩ <;> rw [e] at h <;> cases h
    exact ⟨rfl, rfl⟩

@[simp] theorem admitted_idle : Phase.idle.admitted = true := rfl
@[simp] theorem admitted_busy (o : Operation) : (Phase.busy o).admitted = o.instr.wellFormed := rfl
@[simp] theorem admitted_waitFetch (op : ReadOp) : (Phase.waitFetch op).admitted = true := rfl

@[simp] theorem wellFormed_readOp (op : ReadOp) : op.instr.wellFormed = true := by cases op <;> rfl

/-- A command that is not admitted is refused for one reason, whatever the state. -/
theorem exec_refused_of_not_wellFormed {i : Instr} (h : i.wellFormed = false) :
    ∃ ρ, ∀ s, exec i s = .refused ρ := by
  cases i with
  | reserved => exact ⟨_, fun _ => rfl⟩
  | linearize a b =>
    by_cases hn : dec a = none ∨ dec b = none
    · exact ⟨_, execLinearize_of_infinity hn⟩
    · obtain ⟨ha, hb⟩ := not_or.mp hn
      obtain ⟨cj, ha⟩ := Option.ne_none_iff_exists'.mp ha
      obtain ⟨tc, hb⟩ := Option.ne_none_iff_exists'.mp hb
      have hfin : operandsFinite a b = true := by
        have h1 := (dec_eq_none_iff a).not.mp (by simp [ha])
        have h2 := (dec_eq_none_iff b).not.mp (by simp [hb])
        simp [operandsFinite, h1, h2]
      have hl : linearizeTemp rnd cj tc = none := by
        simpa [Instr.wellFormed, hfin, resultFits, ha, hb] using h
      exact ⟨_, fun s => (execLinearize_of_dec ha hb s).2 hl⟩
  | decode r => cases h
  | rdtc => cases h
  | rdcj => cases h
  | rdf => cases h
  | rdflt => cases h
  | rdraw => cases h

/-- A step under reset. -/
theorem step_of_reset {s : State} (h : resetNow s = true) :
    step s = .next (resetMove (advanceInputs s)) := by simp [step, h]

/-- A step in `Idle`. -/
theorem step_of_idle {s : State} (h : resetNow s = false) (hp : s.phase = .idle) :
    step s = acceptCommand exec s.cmdPort (advanceInputs s) := by simp [step, h, clockMove, hp]

/-- A step with a command in flight. -/
theorem step_of_busy {s : State} {o : Operation} (h : resetNow s = false) (hp : s.phase = .busy o) :
    step s = exec o.instr (advanceInputs s) := by simp [step, h, clockMove, hp]

/-- A step with a fetch pending. -/
theorem step_of_waitFetch {s : State} {op : ReadOp} (h : resetNow s = false)
    (hp : s.phase = .waitFetch op) : step s = exec op.instr (advanceInputs s) := by
  simp [step, h, clockMove, hp]

end Sys2Proof.Machine
end

