-- ==== Sys2Proof/Laws/PerInstr.lean ====
section
/-! SUPPORT. Statements made per operation. -/

namespace Sys2Proof.Laws.CommandRoundTrip

/-- Decoding the command of an operation gives the operation back, and the command carries R33's code. -/
def Statement (i : Instr) : Prop := decodeCommand (encode i) = i ∧ (encode i).op = i.opcode

theorem decode (r : Frame) : Statement (.decode r) := by
  refine ⟨?_, rfl⟩
  show Instr.decode (BitVec.setWidth 32 (BitVec.setWidth 64 r)) = .decode r
  simp

theorem rdtc : Statement .rdtc := ⟨rfl, rfl⟩
theorem rdcj : Statement .rdcj := ⟨rfl, rfl⟩
theorem rdf : Statement .rdf := ⟨rfl, rfl⟩
theorem rdflt : Statement .rdflt := ⟨rfl, rfl⟩
theorem rdraw : Statement .rdraw := ⟨rfl, rfl⟩
theorem linearize (cj tc : Word64) : Statement (.linearize cj tc) := ⟨rfl, rfl⟩
theorem reserved : Statement .reserved := ⟨rfl, rfl⟩

end Sys2Proof.Laws.CommandRoundTrip
end

