-- ==== Sys2Proof/Tests/Slice0.lean ====
section
/-! SUPPORT. Tests on fixed values, and witnesses for the hypotheses of the statements. Expected values are those of
spec/95_test_vectors.md (the vector is named at each test) or are written out from the rules by hand. -/

namespace Sys2Proof.Tests

open Sys2Proof Sys2Proof.Machine

/-- The state after a step, if there is one. -/
def after : Host.Outcome State Fault Refusal → Option State
  | .next t => some t
  | .fault _ => none
  | .refused _ => none

/-- The reason a step is refused, if it is. -/
def refusal : Host.Outcome State Fault Refusal → Option Refusal
  | .next _ => none
  | .fault _ => none
  | .refused ρ => some ρ

/-- Reset, with the operation in flight. -/
def busyWith (o : Operation) : State := { State.reset with phase := .busy o }

/-- Reset, with the command presented. -/
def presented (op : OpCode) (a b : Word64) : State := { State.reset with host := [⟨0, ⟨op, a, b⟩⟩] }

/-- Reset, with the fetch of `op` pending and about to be answered with `r`. -/
def answered (op : ReadOp) (r : Frame) : State :=
  { State.reset with phase := .waitFetch op, acquirer := [.answer 0 r] }

/-- The four response ports after a step. -/
def ports (o : Host.Outcome State Fault Refusal) :
    Option (Option Word64 × Option Word64 × Option FaultSet × Option Bool) :=
  (after o).map fun t => (t.rspX, t.rspY, t.rspFlags, t.rspNodev)

/-! ### Decoding: words written out from R33, R34 -/

theorem test_decode_family_word :
    decodeCommand ⟨0b000#3, 0xFFFFFFFF0FA00A00#64, 0x123#64⟩ = .decode 0x0FA00A00#32 := by decide

theorem test_rdtc_word : decodeCommand ⟨0b001#3, 5#64, 7#64⟩ = .rdtc := by decide
theorem test_rdcj_word : decodeCommand ⟨0b010#3, 5#64, 7#64⟩ = .rdcj := by decide
theorem test_rdf_word : decodeCommand ⟨0b011#3, 5#64, 7#64⟩ = .rdf := by decide
theorem test_rdflt_word : decodeCommand ⟨0b100#3, 5#64, 7#64⟩ = .rdflt := by decide
theorem test_rdraw_word : decodeCommand ⟨0b101#3, 5#64, 7#64⟩ = .rdraw := by decide
theorem test_reserved_word : decodeCommand ⟨0b111#3, 5#64, 7#64⟩ = .reserved := by decide

/-- Cold junction on `a`, thermocouple on `b` (R34). -/
theorem test_linearize_word : decodeCommand ⟨0b110#3, 5#64, 7#64⟩ = .linearize 5#64 7#64 := by decide

/-- Bits 7 to 3 of the first byte are no wires (mask `0x7` of the table). -/
theorem test_table_word_mask : decodeTableWord 8 0xF9 = some .rdtc := by decide

theorem test_table_word_too_long : decodeTableWord 200 (2 ^ 136) = none := by decide

/-- A word that is no command is rejected by name. -/
theorem test_reject_by_name : commandOfBits 200 (2 ^ 136) = .error .beyondCommand := by rfl

/-! ### WellFormed: one ill-formed term for each check -/

theorem test_illformed_reserved : Instr.reserved.wellFormed = false := by decide

theorem test_illformed_infinite_cj :
    (Instr.linearize 0x7FF0000000000000#64 0#64).wellFormed = false := by decide

theorem test_illformed_infinite_tc :
    (Instr.linearize 0#64 0xFFF0000000000000#64).wellFormed = false := by decide

/-- `t = -2^160`: the exact result is near `-10^371`, beyond `2^1024` (R73). -/
theorem test_illformed_huge_result :
    (Instr.linearize 0#64 0xC9F0000000000000#64).wellFormed = false := by decide +kernel

theorem test_wellformed_nan_operand :
    (Instr.linearize 0x7FF8000000000000#64 0x406F400000000000#64).wellFormed = true := by decide

/-! ### DECODE -/

/-- V-D18, the source's scenario, as one step of program P1. -/
theorem test_decode_scenario :
    ports (step (busyWith (.decode 0x0FA00A00#32))) =
      some (some 0x406F400000000000#64, some 0x4024000000000000#64, some 0#3, some false) := by decide

/-- V-D23: the all-ones frame is three faults, not NO_DEVICE; the cold junction is -1/16. -/
theorem test_decode_all_ones :
    ports (exec (.decode 0xFFFFFFFF#32) State.reset) =
      some (some 0x7FF8000000000000#64, some 0xBFB0000000000000#64, some 7#3, some false) := by decide

/-! ### The read operations -/

/-- P3 line 1: RDRAW asks for one frame. -/
theorem test_rdraw_requests :
    after (step (busyWith .rdraw)) = some { State.reset with phase := .waitFetch .rdraw } := by decide

/-- V-R2: RDRAW gives 0 for a fault frame. -/
theorem test_rdraw_fault_frame :
    ports (step (answered .rdraw 0x0FA00A01#32)) = some (some 0#64, none, none, none) := by decide

/-- V-R9. -/
theorem test_rdtc_most_negative :
    ports (step (answered .rdtc 0x80000000#32)) = some (some 0xC0A0000000000000#64, none, none, none) := by decide

/-- V-R2: the cold junction survives an open circuit. -/
theorem test_rdcj_fault_frame :
    ports (step (answered .rdcj 0x0FA00A01#32)) = some (some 0x4024000000000000#64, none, none, none) := by decide

/-- V-R7: 32.45 needs rounding. -/
theorem test_rdf_rounds :
    ports (step (answered .rdf 0x00040000#32)) = some (some 0x404039999999999A#64, none, none, none) := by decide

/-- V-C9: the first count where three roundings would differ from one. -/
theorem test_ctof_one_rounding :
    enc (ctoF rnd (.val (mkRat (-4621) 4))) = some 0xC09FFDCCCCCCCCCD#64 := by decide

/-- V-R10. -/
theorem test_rdflt_short_to_vcc :
    ports (step (answered .rdflt 0x0FA10A04#32)) = some (none, none, some 0b100#3, none) := by decide

/-! ### LINEARIZE -/

/-- V-L12, program P1 line 2. -/
theorem test_linearize_scenario :
    ports (step (busyWith (.linearize 0x4024000000000000#64 0x406F400000000000#64))) =
      some (some 0x406FBDCEF8457AD6#64, none, none, none) := by decide

/-- V-L15: `Vtotal` exactly 20.644 takes HI. -/
theorem test_linearize_at_threshold :
    ports (exec (.linearize 0x40B5380000000000#64 0x4081E00000000000#64) State.reset) =
      some (some 0x407F3F28708EFEC3#64, none, none, none) := by decide

/-- V-L17: far below the table, a finite number. -/
theorem test_linearize_far_below :
    ports (exec (.linearize 0x405FFC0000000000#64 0xC0A0000000000000#64) State.reset) =
      some (some 0xC26F1AE9E2ABA841#64, none, none, none) := by decide

/-- R73: an infinity, and an infinity beside a `Fault` (log entry 10). -/
theorem test_infinity_refused :
    refusal (exec (.linearize 0#64 0xFFF0000000000000#64) State.reset) = some .infiniteOperand ∧
      refusal (exec (.linearize 0x7FF0000000000000#64 0x7FF8000000000000#64) State.reset) = some .infiniteOperand := by
  decide

/-- U1: refused by the step that would accept it, so a reset on the step after hides nothing. -/
theorem test_reserved_refused :
    refusal (step (presented 7#3 1#64 2#64)) = some .reservedOperationCode ∧
      runN 2 { presented 7#3 1#64 2#64 with rst := [false, true] } = none := by decide

/-- The same by the table word. -/
theorem test_reserved_word_refused :
    refusal (step (State.reset.withFetchWord 8 7)) = some .reservedOperationCode := by decide

/-! ### The machine -/

/-- The host's two questions, on the row of LINEARIZE: the very next step after reset executes the word. -/
theorem test_fetch_word_runs :
    ports (step (State.reset.withFetchWord 8 6)) = some (some 0#64, none, none, none) := by decide

/-- P6: a DECODE presented while RDTC waits for ever is not accepted; after reset it is, and the late frame of the
abandoned fetch is gone. -/
theorem test_hang_reset_accept :
    runN 4 { State.reset with
      phase := .waitFetch .rdtc
      host := [⟨0, ⟨0#3, 0x0FA00A00#64, 0#64⟩⟩]
      acquirer := [.answer 9 0x0FA00A01#32]
      rst := [false, true] } =
    some ([.reading { tc := .val 250, cj := .val 10, flags := 0#3 } false],
      { State.reset with
        rsp := some (.reading { tc := .val 250, cj := .val 10, flags := 0#3 } false) }) := by decide

/-- R116: `cmd_valid` is 0 in the last step of `WaitFetch`, rises with `Idle`, and the command is accepted in the first
step in `Idle`. -/
theorem test_present_as_wait_ends :
    ({ answered .rdtc 0x0FA00A00#32 with host := [⟨1, ⟨1#3, 0#64, 0#64⟩⟩] } : State).cmdValid = false ∧
      (after (step { answered .rdtc 0x0FA00A00#32 with host := [⟨1, ⟨1#3, 0#64, 0#64⟩⟩] })).map
        (fun t => (t.cmdReady, t.cmdValid)) = some (true, true) ∧
      (runN 2 { answered .rdtc 0x0FA00A00#32 with host := [⟨1, ⟨1#3, 0#64, 0#64⟩⟩] }).map (·.2.phase) =
        some (.busy .rdtc) := by decide

/-! ### Witnesses for the hypotheses of the statements -/

/-- A bit list of 32 (FrameBytesAndBitsArriveMostSignificantFirst). -/
theorem witness_serial_length : (List.replicate 32 true).length = 32 ∧ 31 < 32 := by decide

/-- Ignored bits (IgnoredOperandBitsChangeNothing): equal low halves with different high halves; a code that is
neither 0 nor 6. -/
theorem witness_ignored_bits :
    (0xFFFFFFFF00000001#64).setWidth 32 = (0x0000000000000001#64).setWidth 32 ∧
      (1#3 : OpCode) ≠ 0#3 ∧ (1#3 : OpCode) ≠ 6#3 := by decide

/-- `dec` gives the sentinel, a value and a zero (TemperatureEncodingInvertsDecoding); `enc` gives words. -/
theorem witness_dec_enc :
    dec 0xFFF0000000000001#64 = some .fault ∧ dec 0x406F400000000000#64 = some (.val 250) ∧
      dec 0x8000000000000000#64 = some (.val 0) ∧ enc (.val 250) = some 0x406F400000000000#64 := by decide

/-- A 14-bit field with its top bit set in a 32-bit word (SignExtensionDoesNotDependOnTheWorkingWidth). -/
theorem witness_sign_extension :
    0 < 14 ∧ 14 ≤ 32 ∧ 8192 < 2 ^ 14 ∧ signExtend 14 32 8192 = -8192 ∧ signExtend 14 14 8192 = -8192 := by decide

/-- Bit 16 against bits 2 to 0, both ways (FaultBitsAloneInvalidateTheThermocouple). -/
theorem witness_bit16 :
    (0x00010000#32).getLsbD 16 = true ∧ (0x00010000#32).extractLsb' 0 3 = 0#3 ∧
      (0x00000001#32).getLsbD 16 = false ∧ (0x00000001#32).extractLsb' 0 3 ≠ 0#3 := by decide

/-- The cases of a reading (NoDeviceIsTheAllZeroFrameAlone, ValidReadingsAreExactAndInRange). -/
theorem witness_readings :
    (decodeFrame 0#32).cj = .fault ∧ (decodeFrame 1#32).flags ≠ 0#3 ∧
      (decodeFrame 0x80008000#32).tc = .val (-2048) ∧ (decodeFrame 0x80008000#32).cj = .val (-128) := by decide

/-- Frames that differ in bit 16 only (ReservedAndAggregateBitsAreIgnored). -/
theorem witness_ignored_frame_bits :
    (0x0FA00A00#32 : Frame) ≠ 0#32 ∧ (0x0FA10A00#32 : Frame) ≠ 0#32 ∧
      ∀ k : Fin 32, k.val ≠ 17 → k.val ≠ 16 → k.val ≠ 3 →
        (0x0FA00A00#32).getLsbD k.val = (0x0FA10A00#32).getLsbD k.val := by decide

/-- Field values at the ends of their ranges (FieldValuesRoundTripThroughAFrame). -/
theorem witness_field_values :
    (-8192 : ℤ) ≤ -8192 ∧ (-8192 : ℤ) ≤ 8191 ∧ (-2048 : ℤ) ≤ 2047 ∧ (2047 : ℤ) ≤ 2047 ∧
      ((-8192 : ℤ), (2047 : ℤ)) ≠ (0, 0) := by decide

/-- Operands for LinearizePassesAFaultThrough, both clauses. -/
theorem witness_fault_operands :
    dec 0x7FF8000000000000#64 = some .fault ∧ dec 0x409FFF0000000000#64 ≠ none := by decide

/-- Grid operands at the corner of R59 (d) (TotalVoltageAndItsGridForm). -/
theorem witness_grid_corner :
    (-32768 : ℤ) ≤ -32768 ∧ (-32768 : ℤ) ≤ 32764 ∧ (-2048 : ℤ) ≤ 2047 ∧ (2047 : ℤ) ≤ 2047 := by decide

/-- V-L31: the nearest DECODE pair below 0 (LinearizeBelowZeroUsesTheNegTable, the answered clause). -/
theorem witness_neg_segment :
    dec 0x4057A00000000000#64 = some (.val (mkRat 189 2)) ∧ dec 0x3FF4000000000000#64 = some (.val (mkRat 5 4)) ∧
      vtotal (mkRat 189 2) (mkRat 5 4) < 0 ∧
      (corrected (vtotal (mkRat 189 2) (mkRat 5 4))).map atLeast2Pow1024 = some false := by decide

/-- `t = -2^160` (the refused clause of the same statement). -/
theorem witness_neg_segment_huge :
    dec 0xC9F0000000000000#64 = some (.val (-(2 ^ 160))) ∧ vtotal 0 (-(2 ^ 160)) < 0 ∧
      (corrected (vtotal 0 (-(2 ^ 160)))).map atLeast2Pow1024 = some true := by decide +kernel

/-- V-L1 and V-L21: both ends of MID (LinearizeMidRangeUsesTheMidTable). -/
theorem witness_mid_segment :
    dec 0#64 = some (.val 0) ∧ vtotal 0 0 = 0 ∧
      dec 0xC046080000000000#64 = some (.val (mkRat (-705) 16)) ∧
      dec 0x407F390000000000#64 = some (.val (mkRat 7993 16)) ∧
      0 ≤ vtotal (mkRat (-705) 16) (mkRat 7993 16) ∧
      vtotal (mkRat (-705) 16) (mkRat 7993 16) < mkRat 20644 1000 := by decide

/-- V-L15 and V-L23: both ends of HI (LinearizeHighRangeUsesTheHiTable). -/
theorem witness_hi_segment :
    dec 0x40B5380000000000#64 = some (.val 5432) ∧ dec 0x4081E00000000000#64 = some (.val 572) ∧
      vtotal 5432 572 = mkRat 20644 1000 ∧
      dec 0xC05C000000000000#64 = some (.val (-112)) ∧ dec 0x4094C10000000000#64 = some (.val (mkRat 5313 4)) ∧
      mkRat 20644 1000 ≤ vtotal (-112) (mkRat 5313 4) ∧
      vtotal (-112) (mkRat 5313 4) < mkRat 54886 1000 := by decide

/-- V-L20: exactly 54.886 (LinearizeAboveTheTablesAnswersFault). -/
theorem witness_out_of_range :
    dec 0x40BD9C0000000000#64 = some (.val 7580) ∧ dec 0x4096580000000000#64 = some (.val 1430) ∧
      vtotal 7580 1430 = mkRat 54886 1000 := by decide

/-- Two operand pairs with one voltage (LinearizeDependsOnTheVoltageOnly): `(0, 0)` and `(41276, 546)`. -/
theorem witness_equal_voltages :
    dec 0x40E4278000000000#64 = some (.val 41276) ∧ dec 0x4081100000000000#64 = some (.val 546) ∧
      vtotal 41276 546 = vtotal 0 0 := by decide

/-- Results in the range of the rounding statements: an exact tie at the low end of the normal range and an
ordinary value (RoundingIsToNearestTiesToEven, RoundingKeepsTheAccuracyContract). -/
theorem witness_rounding :
    rnd (mkRat (2 ^ 53 + 1) 1) = mkRat (2 ^ 53) 1 ∧ rnd (mkRat (2 ^ 53 + 3) 1) = mkRat (2 ^ 53 + 4) 1 ∧
      pow2 (-1022) ≤ ratAbs (mkRat 1 (2 ^ 1022)) ∧ atLeast2Pow1024 (mkRat 1 (2 ^ 1022)) = false := by
  decide +kernel

/-- The low end of the accuracy range, `10^6 * 2^-1075`, below the normal range; and a value within `TOL` below that
end, the smallest one for itself (RoundingKeepsTheAccuracyContract). -/
theorem witness_accuracy_range :
    keepsContract (rnd (mkRat (10 ^ 6) (2 ^ 1075))) (mkRat (10 ^ 6) (2 ^ 1075)) = true ∧
      mkRat (10 ^ 6) (2 ^ 1075) < pow2 (-1022) ∧
      dec 1#64 = some (.val (pow2 (-1074))) ∧ keepsContract (pow2 (-1074)) (pow2 (-1074)) = true := by decide +kernel

/-- A temperature pair with an exact result (ConformingRoundingsAgreeUpToTheContract): V-L12. -/
theorem witness_conforming_operands :
    (corrected (vtotal 10 250)).isSome = true ∧
      (corrected (vtotal 10 250)).map (fun q => decide (1 ≤ q ∧ q < 512)) = some true ∧
      corrected (vtotal 0 0) = some 0 := by decide

/-- A conforming rounding exists (ConformingRoundingsAgreeUpToTheContract). -/
theorem witness_conforming_rounding : ∃ R : Rat → Rat, Conforming R := ⟨rnd, conforming_rnd⟩

/-- The phases and answers of the read operations: about to request, delayed, silent, answered. -/
theorem witness_read_operation :
    (busyWith .rdtc).phase ≠ .waitFetch .rdtc ∧
      ({ State.reset with phase := .waitFetch .rdtc, acquirer := [.answer 1 0#32] } : State).acquirer =
        .answer (0 + 1) 0#32 :: [] ∧
      ({ State.reset with phase := .waitFetch .rdtc, acquirer := [.never] } : State).acquirer = .never :: [] ∧
      ({ State.reset with phase := .waitFetch .rdtc } : State).acquirer = [] := by decide

/-- The hypotheses of the five completion statements, for every read operation and every frame. -/
theorem witness_answered (op : ReadOp) (r : Frame) :
    (answered op r).phase = .waitFetch op ∧ (answered op r).acquirer = .answer 0 r :: [] := ⟨rfl, rfl⟩

/-- RDRAW's word exists for a fault frame (ReadOperationsAgreeWithDecode). -/
theorem witness_rdraw_word :
    rdrawResponse 0x0FA00A01#32 = .word 0#32 ∧ (0x0FA00A01#32).extractLsb' 0 3 ≠ 0#3 := by decide

/-- LINEARIZE answers a `Fault` of each kind (ReportedConditionsExplainEveryFault): the caller's own, and V-L20's
OUT_OF_RANGE. -/
theorem witness_linearize_faults :
    (after (exec (.linearize 0x7FF8000000000000#64 0#64) State.reset)).map (·.rsp) = some (some (.temp .fault)) ∧
      reported (.linearize 0x7FF8000000000000#64 0#64) 0#32 = [] ∧
      (after (exec (.linearize 0x40BD9C0000000000#64 0x4096580000000000#64) State.reset)).map (·.rsp) =
        some (some (.temp .fault)) ∧
      reported (.linearize 0x40BD9C0000000000#64 0x4096580000000000#64) 0#32 = [.outOfRange] := by decide

/-- The steps of the port statement exist: DECODE, LINEARIZE, RDF. -/
theorem witness_port_steps :
    (after (exec (.decode 0#32) State.reset)).isSome = true ∧
      (after (exec (.linearize 0#64 0#64) State.reset)).isSome = true ∧
      (after (exec .rdf (answered .rdf 0x0FA00A00#32))).isSome = true := by decide

/-- Both handshakes happen, and a command is turned away (HandshakesAcceptCommandsAndFrames). -/
theorem witness_handshakes :
    (presented 1#3 0#64 0#64).cmdPort = some ⟨1#3, 0#64, 0#64⟩ ∧ (presented 1#3 0#64 0#64).cmdReady = true ∧
      decodeCommand ⟨1#3, 0#64, 0#64⟩ = Operation.rdtc.instr ∧ Operation.rdtc.instr.wellFormed = true ∧
      (after (step (presented 1#3 0#64 0#64))).map (·.phase) = some (.busy .rdtc) ∧
      (presented 6#3 0x7FF0000000000000#64 0#64).cmdPort = some ⟨6#3, 0x7FF0000000000000#64, 0#64⟩ ∧
      (decodeCommand ⟨6#3, 0x7FF0000000000000#64, 0#64⟩).wellFormed = false ∧
      (answered .rdcj 0x00008000#32).acqData = some 0x00008000#32 ∧
      (answered .rdcj 0x00008000#32).rst.headD false = false := by decide

/-- Reset in each phase (ResetAbandonsTheCommandInFlight). -/
theorem witness_reset :
    ({ State.reset with phase := .waitFetch .rdcj, rst := [true] } : State).rst = true :: [] ∧
      ({ State.reset with rst := [true] } : State).phase ≠ .waitFetch .rdcj := by decide

/-- A well-formed operation in flight, and one waiting (StepExecutesTheOperationInFlight). -/
theorem witness_in_flight :
    (busyWith (.decode 1#32)).rst.headD false = false ∧ (busyWith (.decode 1#32)).phase = .busy (.decode 1#32) ∧
      (decodeCommand ⟨0#3, 1#64, 0#64⟩).wellFormed = true ∧
      (answered .rdtc 1#32).phase = .waitFetch .rdtc := by decide

/-- Table words with an admitted operation and without one (PlacedWordIsExecutedNext), the first placed although reset
was about to come. -/
theorem witness_placed_word :
    decodeTableWord 8 5 = some .rdraw ∧ Instr.rdraw.wellFormed = true ∧
      decodeTableWord 8 7 = some .reserved ∧ Instr.reserved.wellFormed = false ∧
      after (step (State.withFetchWord { State.reset with rst := [true] } 8 5)) =
        some { State.reset with phase := .waitFetch .rdraw } := by decide

/-- A command accepted in `Idle`, and one held while a fetch is pending (CommandsWaitUntilIdleAndAreNeverLost,
EveryStepIsAMoveOfTheInFlightRecord). -/
theorem witness_host :
    (after (step (presented 1#3 0#64 0#64))).map (·.phase) = some (.busy .rdtc) ∧
      (after (step { State.reset with phase := .waitFetch .rdtc, host := [⟨0, ⟨1#3, 0#64, 0#64⟩⟩] })).map (·.host) =
        some [⟨0, ⟨1#3, 0#64, 0#64⟩⟩] := by decide

/-- A command two steps away comes nearer in `WaitFetch` and under reset (CommandsWaitUntilIdleAndAreNeverLost,
HostPresentsAtAnyTime). -/
theorem witness_coming_command :
    (runN 1 { State.reset with phase := .waitFetch .rdtc, host := [⟨2, ⟨1#3, 0#64, 0#64⟩⟩], rst := [false, true] }).map
        (fun p => (p.2.phase, p.2.host)) = some (.waitFetch .rdtc, [⟨1, ⟨1#3, 0#64, 0#64⟩⟩]) ∧
      (runN 2 { State.reset with phase := .waitFetch .rdtc, host := [⟨2, ⟨1#3, 0#64, 0#64⟩⟩], rst := [false, true] }).map
        (fun p => (p.2.phase, p.2.host, p.2.cmdValid)) = some (.idle, [⟨0, ⟨1#3, 0#64, 0#64⟩⟩], true) := by decide

/-- A silent FrameAcquirer, without and with a reset to come (UnansweredFetchHangsUntilReset). -/
theorem witness_hang :
    ({ State.reset with phase := .waitFetch .rdtc, acquirer := [.never], rst := [false] } : State).rst =
        List.replicate 1 false ∧
      ({ State.reset with phase := .waitFetch .rdtc, acquirer := [.never], rst := [false, true] } : State).rst =
        List.replicate 1 false ++ true :: [] := by decide

/-- The reserved code presented in `Idle` (ReservedCodeIsRefused). -/
theorem witness_reserved_presented :
    (presented 7#3 1#64 2#64).rst.headD false = false ∧ (presented 7#3 1#64 2#64).phase = .idle ∧
      (presented 7#3 1#64 2#64).host = ⟨0, ⟨7#3, 1#64, 2#64⟩⟩ :: [] := by decide

/-- A legal state whose step is refused (LegalStatesRefuseOnlyAtAcceptance), and an illegal one, with a command in
flight that is not admitted. -/
theorem witness_refused_at_acceptance :
    (presented 6#3 0x7FF0000000000000#64 0#64).legal = true ∧
      refusal (step (presented 6#3 0x7FF0000000000000#64 0#64)) = some .infiniteOperand ∧
      (busyWith (.linearize 0x7FF0000000000000#64 0#64)).legal = false := by decide

/-- An admitted and a refused operation (AdmittedOperationsExecuteAndOthersAreRefused). -/
theorem witness_admitted :
    (Instr.linearize 0#64 0#64).wellFormed = true ∧ Instr.reserved.wellFormed = false := by decide

/-- Two different states that agree on phase and answer (ResponsesDoNotDependOnHistory). -/
theorem witness_history :
    (answered .rdtc 1#32).phase = ({ answered .rdtc 1#32 with rsp := some (.flags 0#3) } : State).phase ∧
      (answered .rdtc 1#32) ≠ { answered .rdtc 1#32 with rsp := some (.flags 0#3) } ∧
      (after (exec .rdtc (answered .rdtc 1#32))).isSome = true := by decide

/-- A legal state with a step (EveryStepKeepsStatesLegal), and one that is not legal. -/
theorem witness_legal :
    (answered .rdf 0x0FA00A00#32).legal = true ∧
      (after (step (answered .rdf 0x0FA00A00#32))).map (·.legal) = some true ∧
      ({ State.reset with rsp := some (.reading { tc := .val 0, cj := .fault, flags := 0#3 } true) } : State).legal =
        false := by decide

/-- A run with a wait, a delay, a fetch and no reset (RunsDeliverExactlyTheResponsesOwed): program P3. -/
theorem witness_run :
    responsesTo (operationsOf [⟨2, ⟨5#3, 0#64, 0#64⟩⟩, ⟨0, ⟨0#3, 0#64, 0#64⟩⟩])
        (framesOf [.answer 1 0x0FA00A01#32]) =
      some [.word 0#32, .reading { tc := .fault, cj := .fault, flags := 0#3 } true] ∧
    (runN 9 { State.reset with
      host := [⟨2, ⟨5#3, 0#64, 0#64⟩⟩, ⟨0, ⟨0#3, 0#64, 0#64⟩⟩], acquirer := [.answer 1 0x0FA00A01#32] }).map (·.1) =
      some [.word 0#32, .reading { tc := .fault, cj := .fault, flags := 0#3 } true] := by decide

end Sys2Proof.Tests
end

section
/-! PROOF. The in-flight record (spec/10_state.md R11, R17 to R19): what a step makes of it, that every response
delivered is one the ports can carry, and the model's loader. -/

namespace Sys2Proof.Machine

/-! ### Finite binary64 values -/

/-- Rounding fixes the multiples of the spacing around them (R40 (b)). -/
theorem roundNearest_of_grid {q : Rat} (hq : q ≠ 0) {z : Int} (h : q = z * 2 ^ (spacingExponent |q| - 52)) :
    roundNearest q = q := by
  have hle := roundNearest_le_grid hq z
  rw [← h, sub_self, abs_zero] at hle
  exact sub_eq_zero.mp (abs_nonpos_iff.mp hle)

/-- A 53-bit integer scaled by a power of two of binary64's exponent range is a finite binary64 value (R39). -/
theorem isBinary64_intCast_mul_zpow {z k : Int} (hz : |z| < 2 ^ 53) (hk : -1074 ≤ k) (hk' : k ≤ 971) :
    isBinary64 (z * 2 ^ k) = true := by
  by_cases hq : (z : Rat) * 2 ^ k = 0
  · rw [hq]
    rfl
  have hlt : |(z : Rat) * 2 ^ k| < 2 ^ (k + 53) := by
    have hz' : |(z : Rat)| < 2 ^ (53 : Int) := by exact_mod_cast hz
    rw [abs_mul, abs_of_pos (two_zpow_pos k), add_comm, ← two_zpow_mul]
    exact mul_lt_mul_of_pos_right hz' (two_zpow_pos k)
  have hspacing : spacingExponent |(z : Rat) * 2 ^ k| - 52 ≤ k := by
    have := floorLog2_lt (abs_pos.mpr hq) hlt
    rw [spacingExponent]
    omega
  obtain ⟨j, hj⟩ := Int.eq_ofNat_of_zero_le (sub_nonneg.mpr hspacing)
  have hround : roundNearest (z * 2 ^ k) = z * 2 ^ k := by
    refine roundNearest_of_grid hq (z := z * 2 ^ j) ?_
    push_cast
    rw [mul_assoc, ← zpow_natCast (2 : Rat) j, two_zpow_mul, ← hj, sub_add_cancel]
  have hfits : atLeast2Pow1024 (z * 2 ^ k) = false := by
    rw [← Bool.not_eq_true, atLeast2Pow1024_iff, not_le, ← zpow_natCast]
    exact hlt.trans_le (zpow_le_zpow_right₀ (by norm_num) (by push_cast; omega))
  rw [← hround] at hfits ⊢
  exact isBinary64_roundNearest hfits

/-! ### Frame fields -/

theorem tcField_lt (r : Frame) : tcField r < 2 ^ 14 := by
  rw [tcField_eq]
  exact BitVec.isLt _

theorem cjField_lt (r : Frame) : cjField r < 2 ^ 12 := by
  rw [cjField_eq]
  exact BitVec.isLt _

/-- Sign extension stays in the working width (R47). -/
theorem extend_lt {v n w : Nat} (hv : v < 2 ^ w) : extend v n w < 2 ^ w := by
  have hmask : 2 ^ w - 1 - (2 ^ n - 1) < 2 ^ w := by
    have := Nat.two_pow_pos w
    omega
  unfold extend
  split
  · exact Nat.or_lt_two_pow hv hmask
  · exact hv

theorem abs_readSigned_le {w u : Nat} (hu : u < 2 ^ w) : |readSigned w u| ≤ 2 ^ w := by
  have hu' : (u : Int) < 2 ^ w := by exact_mod_cast hu
  unfold readSigned
  split <;> exact abs_le.mpr ⟨by omega, by omega⟩

theorem abs_signExtend_le {n w v : Nat} (hv : v < 2 ^ w) : |signExtend n w v| ≤ 2 ^ w :=
  abs_readSigned_le (extend_lt hv)

/-- The thermocouple value is a finite binary64 value (R56). -/
theorem isBinary64_tcDegrees (r : Frame) : isBinary64 (tcDegrees r) = true := by
  have hcount : |tcCount r| ≤ 2 ^ 32 := abs_signExtend_le ((tcField_lt r).trans (by norm_num [Config.workingWidth]))
  have hscale : tcDegrees r = tcCount r * 2 ^ (-2 : Int) := by
    rw [tcDegrees, ratMul_eq, ratOfInt_eq, Config.tcLsb, Rat.mkRat_eq_div]
    norm_num
  rw [hscale]
  exact isBinary64_intCast_mul_zpow (hcount.trans_lt (by norm_num)) (by norm_num) (by norm_num)

/-- The cold-junction value is a finite binary64 value (R56). -/
theorem isBinary64_cjDegrees (r : Frame) : isBinary64 (cjDegrees r) = true := by
  have hcount : |cjCount r| ≤ 2 ^ 32 := abs_signExtend_le ((cjField_lt r).trans (by norm_num [Config.workingWidth]))
  have hscale : cjDegrees r = cjCount r * 2 ^ (-4 : Int) := by
    rw [cjDegrees, ratMul_eq, ratOfInt_eq, Config.cjLsb, Rat.mkRat_eq_div]
    norm_num
  rw [hscale]
  exact isBinary64_intCast_mul_zpow (hcount.trans_lt (by norm_num)) (by norm_num) (by norm_num)

/-! ### Every temperature delivered has a port word -/

@[simp] theorem enc_fault_isSome : (enc .fault).isSome = true := rfl

@[simp] theorem noDevice_iff (r : Frame) : noDevice r = true ↔ r = 0#32 := beq_iff_eq

/-- The three rows of R53. -/
theorem decodeFrame_cases (r : Frame) :
    (r = 0#32 ∧ noDevice r = true ∧ decodeFrame r = { tc := .fault, cj := .fault, flags := 0#3 }) ∨
    (noDevice r = false ∧ faultBits r ≠ 0#3 ∧
      decodeFrame r = { tc := .fault, cj := .val (cjDegrees r), flags := faultBits r }) ∨
    (noDevice r = false ∧ faultBits r = 0#3 ∧
      decodeFrame r = { tc := .val (tcDegrees r), cj := .val (cjDegrees r), flags := 0#3 }) := by
  cases hn : noDevice r with
  | true =>
    obtain rfl := (noDevice_iff r).mp hn
    exact .inl ⟨rfl, rfl, rfl⟩
  | false =>
    by_cases hf : faultBits r = 0#3
    · exact .inr (.inr ⟨rfl, hf, by simp [decodeFrame, hn, hf]⟩)
    · exact .inr (.inl ⟨rfl, hf, by simp [decodeFrame, hn, hf]⟩)

theorem enc_decodeFrame_tc_isSome (r : Frame) : (enc (decodeFrame r).tc).isSome = true := by
  rcases decodeFrame_cases r with ⟨-, -, e⟩ | ⟨-, -, e⟩ | ⟨-, -, e⟩ <;> rw [e]
  · rfl
  · rfl
  · exact isBinary64_tcDegrees r

theorem enc_decodeFrame_cj_isSome (r : Frame) : (enc (decodeFrame r).cj).isSome = true := by
  rcases decodeFrame_cases r with ⟨-, -, e⟩ | ⟨-, -, e⟩ | ⟨-, -, e⟩ <;> rw [e]
  · rfl
  · exact isBinary64_cjDegrees r
  · exact isBinary64_cjDegrees r

theorem enc_ctoF_rnd_isSome (t : Temp) : (enc (ctoF rnd t)).isSome = true := by
  cases t with
  | fault => rfl
  | val c => exact isBinary64_rnd _

theorem enc_linearizeTemp_rnd_isSome {cj tc t : Temp} (h : linearizeTemp rnd cj tc = some t) :
    (enc t).isSome = true := by
  rcases linearizeTemp_cases rnd cj tc with
    ⟨-, e⟩ | ⟨c, v, -, -, ⟨-, e⟩ | ⟨q, -, ⟨-, e⟩ | ⟨-, e⟩⟩⟩ <;> rw [e] at h <;> cases h
  · rfl
  · rfl
  · exact isBinary64_rnd q

/-! ### Every response owed is legal -/

/-- DECODE delivers one of R53's rows. -/
theorem legal_decodeResponse (r : Frame) : (Response.reading (decodeFrame r) (noDevice r)).legal = true := by
  have htc := enc_decodeFrame_tc_isSome r
  have hcj := enc_decodeFrame_cj_isSome r
  rcases decodeFrame_cases r with ⟨-, hn, e⟩ | ⟨hn, hf, e⟩ | ⟨hn, -, e⟩ <;> rw [e] at htc hcj ⊢
  · simp [Response.legal, hn]
  · simp [Response.legal, hn, hcj, hf]
  · simp [Response.legal, hn, htc, hcj]

/-- RDRAW masks every fault frame (R85). -/
theorem legal_rdrawResponse (r : Frame) : (rdrawResponse r).legal = true := by
  unfold rdrawResponse
  cases hr : rawFault r with
  | true =>
    rw [if_pos rfl]
    rfl
  | false => simp [Response.legal, hr]

theorem legal_readResponse (op : ReadOp) (r : Frame) : (readResponse op r).legal = true := by
  cases op with
  | rdtc => exact enc_decodeFrame_tc_isSome r
  | rdcj => exact enc_decodeFrame_cj_isSome r
  | rdf => exact enc_ctoF_rnd_isSome _
  | rdflt => rfl
  | rdraw => exact legal_rdrawResponse r

theorem responseOf_linearize {a b : Word64} {r : Frame} {x : Response}
    (h : responseOf (.linearize a b) r = some x) :
    ∃ cj tc t, dec a = some cj ∧ dec b = some tc ∧ linearizeTemp rnd cj tc = some t ∧ x = .temp t := by
  simp only [responseOf] at h
  split at h
  case h_1 cj tc ha hb =>
    obtain ⟨t, ht, rfl⟩ := Option.map_eq_some_iff.mp h
    exact ⟨cj, tc, t, ha, hb, ht, rfl⟩
  case h_2 => cases h

/-- Every response a command owes (R18) is one TCFD may deliver. -/
theorem legal_of_responseOf {i : Instr} {r : Frame} {x : Response} (h : responseOf i r = some x) :
    x.legal = true := by
  cases hf : fetches i with
  | true =>
    obtain ⟨op, rfl⟩ := (fetches_iff i).mp hf
    rw [responseOf_readOp] at h
    cases h
    exact legal_readResponse op r
  | false =>
    cases i with
    | decode q =>
      cases h
      exact legal_decodeResponse q
    | linearize a b =>
      obtain ⟨cj, tc, t, -, -, ht, rfl⟩ := responseOf_linearize h
      exact enc_linearizeTemp_rnd_isSome ht
    | reserved => cases h
    | rdtc => cases hf
    | rdcj => cases hf
    | rdf => cases hf
    | rdflt => cases hf
    | rdraw => cases hf

/-! ### What executing an operation can do -/

/-- An operation without a fetch completes in one step with the response it owes. -/
theorem next_of_not_fetches {i : Instr} {s t : State} (hf : fetches i = false) (h : exec i s = .next t) :
    ∃ x, responseOf i 0#32 = some x ∧ t = respond x s := by
  rcases exec_of_not_fetches hf s 0#32 with ⟨x, hx, e⟩ | ⟨-, ρ, e⟩ <;> rw [e] at h <;> cases h
  exact ⟨x, hx, rfl⟩

/-- A read operation responds when its own fetch is answered in this step; otherwise its fetch is pending after the
step. -/
theorem next_of_readOp {op : ReadOp} {s t : State} (h : exec op.instr s = .next t) :
    (∃ r k, s.phase = .waitFetch op ∧ s.acquirer = .answer 0 r :: k ∧
      t = respond (readResponse op r) { s with acquirer := k }) ∨
    ((s.phase = .waitFetch op → ∀ r k, s.acquirer ≠ .answer 0 r :: k) ∧ t.phase = .waitFetch op ∧
      t.rsp = none) := by
  rw [exec_readOp] at h
  rcases readOperation_cases op (readResponse op) s with
    ⟨hp, e⟩ | ⟨hp, ⟨r, k, ha, e⟩ | ⟨d, r, k, ha, e⟩ | ⟨ha, e⟩⟩ <;> rw [e] at h <;> cases h
  · exact .inr ⟨fun hp' => absurd hp' hp, rfl, rfl⟩
  · exact .inl ⟨r, k, hp, ha, rfl⟩
  · exact .inr ⟨fun _ r' k' => by simp [ha], hp, rfl⟩
  · refine .inr ⟨fun _ r' k' => ?_, hp, rfl⟩
    rcases ha with ha | ⟨k, ha⟩ <;> simp [ha]

/-- Settles O43, by the phase: `Idle` accepts, refuses or stays; `Busy` and `WaitFetch` execute. -/
theorem everyStepIsAMoveOfTheInFlightRecord : Obligations.EveryStepIsAMoveOfTheInFlightRecord := by
  intro s t hr h
  cases hp : s.phase with
  | idle =>
    rw [step_of_idle hr hp] at h
    rcases acceptCommand_cases exec s.cmdPort (advanceInputs s) with
      ⟨c, o, hc, hd, hw, e⟩ | ⟨c, -, hw, e⟩ | ⟨-, e⟩ <;> rw [e] at h
    · cases h
      obtain ⟨k, hk⟩ := cmdPort_eq_some_iff.mp hc
      exact .inr (.inl ⟨c, k, o, rfl, hk, hd, hw, rfl, by simp [hk], rfl⟩)
    · obtain ⟨ρ, hρ⟩ := exec_refused_of_not_wellFormed hw
      rw [hρ] at h
      cases h
    · cases h
      exact .inl ⟨rfl, hp, rfl⟩
  | busy o =>
    rw [step_of_busy hr hp] at h
    cases hf : fetches o.instr with
    | true =>
      obtain ⟨op, ho⟩ := (fetches_iff _).mp hf
      rw [ho] at h
      rcases next_of_readOp h with ⟨r, k, hp', -, -⟩ | ⟨-, htp, htr⟩
      · simp [hp] at hp'
      · exact .inr (.inr (.inl ⟨o, op, rfl, ho, htp, htr⟩))
    | false =>
      obtain ⟨x, hx, rfl⟩ := next_of_not_fetches hf h
      exact .inr (.inr (.inr (.inl ⟨o, x, rfl, hf, hx, rfl, rfl⟩)))
  | waitFetch op =>
    rw [step_of_waitFetch hr hp] at h
    rcases next_of_readOp h with ⟨r, k, -, ha, rfl⟩ | ⟨ha, htp, htr⟩
    · exact .inr (.inr (.inr (.inr (.inl ⟨op, r, k, rfl, ha, rfl, rfl, (responseOf_readOp op r).symm⟩))))
    · exact .inr (.inr (.inr (.inr (.inr ⟨op, rfl, ha hp, htp, htr⟩))))

/-! ### The invariant -/

/-- With no response on the port, legality is that of the command in flight. -/
theorem legal_of_rsp_none {t : State} (hp : t.phase.admitted = true) (hr : t.rsp = none) : t.legal = true := by
  simp [State.legal, legalPort, hp, hr]

/-- A legal response delivered on a move to `Idle` leaves a legal state. -/
theorem legal_of_idle {t : State} {x : Response} (hp : t.phase = .idle) (hr : t.rsp = some x)
    (hx : x.legal = true) : t.legal = true := by
  simp [State.legal, legalPort, hp, hr, hx]

/-- Settles O48: a reset leaves a legal state, and so does each of the six moves of R17 (O43), a response delivered
being one the operation owes. The state before need not be legal: acceptance admits the command put in flight, and
every step sets the response port anew. -/
theorem everyStepKeepsStatesLegal : Obligations.EveryStepKeepsStatesLegal := by
  intro s t _ h
  cases hr : resetNow s with
  | true =>
    rw [step_of_reset hr] at h
    cases h
    exact legal_of_rsp_none rfl rfl
  | false =>
    rcases everyStepIsAMoveOfTheInFlightRecord s t hr h with
      ⟨-, hp, hx⟩ | ⟨c, k, o, -, -, -, hw, hp, -, hx⟩ | ⟨o, op, -, -, hp, hx⟩ | ⟨o, x, -, -, ho, hp, hx⟩ |
      ⟨op, r, k, -, -, -, hp, hx⟩ | ⟨op, -, -, hp, hx⟩
    · exact legal_of_rsp_none (by rw [hp]; rfl) hx
    · exact legal_of_rsp_none (by rw [hp]; exact hw) hx
    · exact legal_of_rsp_none (by rw [hp]; rfl) hx
    · exact legal_of_idle hp hx (legal_of_responseOf ho)
    · rw [responseOf_readOp] at hx
      exact legal_of_idle hp hx (legal_readResponse op r)
    · exact legal_of_rsp_none (by rw [hp]; rfl) hx

/-! ### Responses and history -/

/-- Two executions of a read operation that agree on the phase and the next answer agree on the response and on the
phase after it. -/
theorem readOp_determined {op : ReadOp} {s s' t t' : State} (h : exec op.instr s = .next t)
    (h' : exec op.instr s' = .next t') (hp : s.phase = s'.phase) (ha : s.acquirer.head? = s'.acquirer.head?) :
    t.rsp = t'.rsp ∧ t.phase = t'.phase := by
  rcases next_of_readOp h with ⟨r, k, hw, hk, rfl⟩ | ⟨hn, htp, htr⟩ <;>
    rcases next_of_readOp h' with ⟨r', k', hw', hk', rfl⟩ | ⟨hn', htp', htr'⟩
  · rw [hk, hk'] at ha
    cases ha
    exact ⟨rfl, rfl⟩
  · rw [hk] at ha
    obtain ⟨k', hk'⟩ := List.head?_eq_some_iff.mp ha.symm
    exact absurd hk' (hn' (hp ▸ hw) r k')
  · rw [hk'] at ha
    obtain ⟨k, hk⟩ := List.head?_eq_some_iff.mp ha
    exact absurd hk (hn (hp ▸ hw') r' k)
  · exact ⟨htr.trans htr'.symm, htp.trans htp'.symm⟩

/-- Settles O47: an operation without a fetch answers the response its operands owe, a read operation what its own
phase and the next answer determine. -/
theorem responsesDoNotDependOnHistory : Obligations.ResponsesDoNotDependOnHistory := by
  intro i s s' t t' h h'
  cases hf : fetches i with
  | true =>
    obtain ⟨op, rfl⟩ := (fetches_iff i).mp hf
    exact ⟨fun hf' => by simp at hf', readOp_determined h h'⟩
  | false =>
    obtain ⟨x, hx, rfl⟩ := next_of_not_fetches hf h
    obtain ⟨x', hx', rfl⟩ := next_of_not_fetches hf h'
    have hxx : some x = some x' := hx.symm.trans hx'
    exact ⟨fun _ => hxx, fun _ _ => ⟨hxx, rfl⟩⟩

/-! ### Reset, the operation in flight and the model's loader -/

/-- Settles O38, by the reset values of R19. -/
theorem resetLeavesTheMachineIdle : Obligations.ResetLeavesTheMachineIdle :=
  ⟨reset_phase, rfl, rfl, rfl, legal_of_rsp_none rfl reset_rsp⟩

/-- Every admitted row of the table is an operation. -/
theorem exists_operation_of_wellFormed {i : Instr} (h : i.wellFormed = true) : ∃ o : Operation, o.instr = i := by
  cases i with
  | reserved => cases h
  | _ => exact ⟨_, instr_of_operation rfl⟩

/-- Settles O40, by what a step is in `Busy` and in `WaitFetch`. -/
theorem stepExecutesTheOperationInFlight : Obligations.StepExecutesTheOperationInFlight := by
  refine ⟨fun s hr => ⟨fun o hp => step_of_busy hr hp, fun op hp => step_of_waitFetch hr hp⟩, fun c hw => ?_⟩
  obtain ⟨o, ho⟩ := exists_operation_of_wellFormed hw
  exact ⟨o, ho, fun s hr hp => ho ▸ step_of_busy hr hp⟩

/-- The table decoder reads a command and takes the operation it selects. -/
theorem decodeTableWord_eq_some_iff {nbits w : Nat} {i : Instr} :
    decodeTableWord nbits w = some i ↔ ∃ c, commandOfBits nbits w = .ok c ∧ decodeCommand c = i := by
  unfold decodeTableWord
  cases commandOfBits nbits w <;> simp

/-- The step after an admitted command is placed executes it. -/
theorem step_placeCommand_of_admitted {c : Command} {o : Operation} (h : admittedOperation c = some o) (s : State) :
    step (placeCommand c s) =
      exec o.instr { s with phase := .busy o, rst := s.rst.tail, host := hostMove s.host } := by
  have hplace : placeCommand c s = { s with phase := .busy o, rst := holdReset s.rst } := by
    simp [placeCommand, h]
  rw [step_of_busy (resetNow_placeCommand s c) (by rw [hplace]), hplace]
  simp [advanceInputs]

/-- The step after a command that is not admitted is placed presents it to `exec` in `Idle`. -/
theorem step_placeCommand_of_not_admitted {c : Command} (h : admittedOperation c = none) (s : State) :
    step (placeCommand c s) =
      exec (decodeCommand c) { s with phase := .idle, host := ⟨0, c⟩ :: s.host, rst := s.rst.tail } := by
  have hplace : placeCommand c s = { s with phase := .idle, host := ⟨0, c⟩ :: s.host, rst := holdReset s.rst } := by
    simp [placeCommand, h]
  have hport : (placeCommand c s).cmdPort = some c := cmdPort_eq_some_iff.mpr ⟨s.host, by rw [hplace]⟩
  rw [step_of_idle (resetNow_placeCommand s c) (by rw [hplace]), hport, hplace]
  simp [acceptCommand, h, advanceInputs]

/-- Settles O41, by whether the command of the word is admitted. -/
theorem placedWordIsExecutedNext : Obligations.PlacedWordIsExecutedNext := by
  intro s nbits w i hi
  obtain ⟨c, hc, rfl⟩ := decodeTableWord_eq_some_iff.mp hi
  have hplace : s.withFetchWord nbits w = placeCommand c s := by simp [State.withFetchWord, hc]
  rw [hplace]
  cases ha : admittedOperation c with
  | some o =>
    obtain ⟨hd, hw⟩ := admittedOperation_eq_some_iff.mp ha
    rw [hd]
    exact ⟨_, step_placeCommand_of_admitted ha s, fun _ => ⟨o, rfl, rfl⟩, fun hw' => by simp [hw] at hw'⟩
  | none =>
    have hw := admittedOperation_eq_none_iff.mp ha
    exact ⟨_, step_placeCommand_of_not_admitted ha s, fun hw' => by simp [hw] at hw', fun _ => ⟨c, rfl, rfl⟩⟩

end Sys2Proof.Machine
end

section
/-! PROOF. Memory and the neighbours of TCFD (spec/20_memory.md): the order in which a frame's bytes and bits arrive
(R22), the commands the host holds (R26), and the fetch that is never answered (R29). -/

namespace Sys2Proof.Machine

/-! ### The frame transaction -/

/-- A byte that arrives after a word has the lowest place. -/
theorem toNat_append_byte {n : Nat} (x : BitVec n) (b : Byte) : (x ++ b).toNat = x.toNat * 2 ^ 8 + b.toNat := by
  rw [BitVec.toNat_append, ← Nat.shiftLeft_add_eq_or_of_lt b.isLt, Nat.shiftLeft_eq]

/-- The place value of each byte of the transaction (R22). -/
theorem toNat_frameOfBytes (b0 b1 b2 b3 : Byte) :
    (frameOfBytes b0 b1 b2 b3).toNat =
      b0.toNat * 2 ^ 24 + b1.toNat * 2 ^ 16 + b2.toNat * 2 ^ 8 + b3.toNat := by
  simp only [frameOfBytes, toNat_append_byte]
  omega

theorem extractLsb'_24_frameOfBytes (b0 b1 b2 b3 : Byte) : (frameOfBytes b0 b1 b2 b3).extractLsb' 24 8 = b0 := by
  apply BitVec.eq_of_toNat_eq
  rw [BitVec.extractLsb'_toNat, toNat_frameOfBytes, Nat.shiftRight_eq_div_pow]
  omega

theorem extractLsb'_0_frameOfBytes (b0 b1 b2 b3 : Byte) : (frameOfBytes b0 b1 b2 b3).extractLsb' 0 8 = b3 := by
  apply BitVec.eq_of_toNat_eq
  rw [BitVec.extractLsb'_toNat, toNat_frameOfBytes, Nat.shiftRight_zero]
  omega

/-- The bit clocked in stands lowest. -/
theorem getLsbD_zero_shiftIn (r : Frame) (b : Bool) : (shiftIn r b).getLsbD 0 = b := by
  simp [shiftIn]

/-- Every bit already there moves up by one. -/
theorem getLsbD_succ_shiftIn (r : Frame) (b : Bool) {j : Nat} (hj : j + 1 < 32) :
    (shiftIn r b).getLsbD (j + 1) = r.getLsbD j := by
  simp [shiftIn, hj, BitVec.getLsbD_eq_getElem (show j < 32 by omega)]

@[simp] theorem frameOfSerial_nil : frameOfSerial [] = 0#32 := rfl

@[simp] theorem frameOfSerial_concat (bits : List Bool) (b : Bool) :
    frameOfSerial (bits ++ [b]) = shiftIn (frameOfSerial bits) b := by
  simp [frameOfSerial]

/-- Bit `j` of the shift register is the last bit but `j` clocked in, and 0 while there are not so many. -/
theorem getLsbD_frameOfSerial (bits : List Bool) {j : Nat} (hj : j < 32) :
    (frameOfSerial bits).getLsbD j = bits.reverse[j]?.getD false := by
  induction bits using List.reverseRecOn generalizing j with
  | nil => simp
  | append_singleton bits b ih =>
    rw [frameOfSerial_concat, List.reverse_concat]
    cases j with
    | zero => exact getLsbD_zero_shiftIn _ b
    | succ j => rw [getLsbD_succ_shiftIn _ _ hj, List.getElem?_cons_succ, ih (by omega)]

/-- Settles O4, by the place values of the bytes and by what the shift register holds. -/
theorem frameBytesAndBitsArriveMostSignificantFirst : Obligations.FrameBytesAndBitsArriveMostSignificantFirst := by
  refine ⟨fun b0 b1 b2 b3 => ⟨toNat_frameOfBytes b0 b1 b2 b3, extractLsb'_24_frameOfBytes b0 b1 b2 b3,
    extractLsb'_0_frameOfBytes b0 b1 b2 b3⟩, fun bits hlen k hk => ?_⟩
  have hmirror : bits.reverse[31 - k]? = bits[k]? := by
    rw [List.getElem?_reverse (by omega)]
    congr 1
    omega
  rw [getLsbD_frameOfSerial bits (by omega), hmirror, List.getElem?_eq_getElem (by omega), Option.getD_some]

/-! ### The commands the host holds -/

/-- All a step can do to the host's list: the host makes its own move, or, in `Idle` and without reset, the command
on the port is taken off (R26, R116). -/
theorem host_of_step {s t : State} (h : step s = .next t) :
    t.host = hostMove s.host ∨
    (resetNow s = false ∧ s.phase = .idle ∧ ∃ c k, s.host = ⟨0, c⟩ :: k ∧ t.host = k) := by
  cases hr : resetNow s with
  | true =>
    rw [step_of_reset hr] at h
    cases h
    exact .inl rfl
  | false =>
    cases hp : s.phase with
    | busy o =>
      rw [step_of_busy hr hp] at h
      exact .inl (exec_frame h).1
    | waitFetch op =>
      rw [step_of_waitFetch hr hp] at h
      exact .inl (exec_frame h).1
    | idle =>
      rw [step_of_idle hr hp] at h
      rcases acceptCommand_cases exec s.cmdPort (advanceInputs s) with
        ⟨c, o, hc, -, -, e⟩ | ⟨c, -, -, e⟩ | ⟨-, e⟩ <;> rw [e] at h
      · cases h
        obtain ⟨k, hk⟩ := cmdPort_eq_some_iff.mp hc
        exact .inr ⟨rfl, rfl, c, k, hk, by simp [hk]⟩
      · exact .inl (exec_frame h).1
      · cases h
        exact .inl rfl

/-- An admitted command on the port in `Idle` goes into flight (R17, R26). -/
theorem step_of_presented {s : State} {c : Command} {k : List Presentation} {o : Operation}
    (hr : resetNow s = false) (hp : s.phase = .idle) (hh : s.host = ⟨0, c⟩ :: k)
    (ha : admittedOperation c = some o) : step s = .next (takeCommand o (advanceInputs s)) := by
  rw [step_of_idle hr hp, cmdPort_eq_some_iff.mpr ⟨k, hh⟩]
  simp [acceptCommand, ha]

/-- Settles O42, by what a step can do to the host's list. -/
theorem commandsWaitUntilIdleAndAreNeverLost : Obligations.CommandsWaitUntilIdleAndAreNeverLost := by
  refine ⟨fun s c k o hr hp hh hd hw => ?_, fun s t c k h hh hwait => ?_, fun s t d c k h hh => ?_,
    fun s t h => ?_⟩
  · rw [step_of_presented hr hp hh (admittedOperation_eq_some_iff.mpr ⟨hd, hw⟩)]
    simp [takeCommand, advanceInputs, hh]
  · rcases host_of_step h with e | ⟨hr, hp, -⟩
    · rw [e, hh, hostMove_presented]
    · rcases hwait with hp' | hr'
      · exact absurd hp hp'
      · exact absurd (hr'.symm.trans hr) nofun
  · rcases host_of_step h with e | ⟨-, -, c', k', hh', -⟩
    · rw [e, hh, hostMove_coming]
    · simp [hh] at hh'
  · rcases host_of_step h with e | ⟨-, -, c, k, hh, e⟩
    · exact ⟨0, by simp [e], Nat.zero_le 1⟩
    · exact ⟨1, by simp [e, hh], le_rfl⟩

/-! ### Runs -/

/-- A run of one step. -/
theorem runN_one {s t : State} (h : step s = .next t) : runN 1 s = some (t.rsp.toList, t) := by
  simp [runN, h]

/-- The first step of a run, when it delivers nothing. -/
theorem runN_succ_of_quiet {s t : State} (h : step s = .next t) (hrsp : t.rsp = none) (n : Nat) :
    runN (n + 1) s = runN n t := by
  simp [runN, h, hrsp]

/-- One run after another is one run, with the responses of both in order. -/
theorem runN_append {m n : Nat} {s t u : State} {xs ys : List Response} (hm : runN m s = some (xs, t))
    (hn : runN n t = some (ys, u)) : runN (m + n) s = some (xs ++ ys, u) := by
  induction m generalizing s xs with
  | zero =>
    cases hm
    simpa using hn
  | succ m ih =>
    rw [Nat.add_right_comm]
    simp only [runN] at hm ⊢
    cases hs : step s with
    | fault r => simp [hs] at hm
    | refused r => simp [hs] at hm
    | next v =>
      simp only [hs, Option.map_eq_some_iff, Prod.mk.injEq] at hm
      obtain ⟨⟨zs, w⟩, hw, rfl, rfl⟩ := hm
      simp [ih hw]

/-! ### The fetch that is never answered -/

/-- A fetch is pending for `op`, and the FrameAcquirer has no answer to it (R29). -/
def State.Hangs (op : ReadOp) (s : State) : Prop :=
  s.phase = .waitFetch op ∧ (s.acquirer = [] ∨ ∃ k, s.acquirer = .never :: k)

theorem State.Hangs.acquirer_ne_answer {op : ReadOp} {s : State} (h : s.Hangs op) (d : Nat) (r : Frame)
    (k : List FetchAnswer) : s.acquirer ≠ .answer d r :: k := by
  obtain ⟨-, ha | ⟨k', ha⟩⟩ := h <;> simp [ha]

/-- Without reset, a step of a hanging machine delivers nothing and moves on nothing but the inputs. -/
theorem State.Hangs.step_eq {op : ReadOp} {s : State} (h : s.Hangs op) (hr : resetNow s = false) :
    step s = .next (quiet (advanceInputs s)) := by
  rw [step_of_waitFetch hr h.1, exec_readOp]
  rcases readOperation_cases op (readResponse op) (advanceInputs s) with
    ⟨hp', -⟩ | ⟨-, ⟨r, k, ha', -⟩ | ⟨d, r, k, ha', -⟩ | ⟨-, e⟩⟩
  · exact absurd h.1 hp'
  · exact absurd ha' (h.acquirer_ne_answer 0 r k)
  · exact absurd ha' (h.acquirer_ne_answer (d + 1) r k)
  · exact e

/-- A machine that hangs still hangs after any number of steps without reset (R29). -/
theorem State.Hangs.run {op : ReadOp} {n : Nat} {s : State} (h : s.Hangs op)
    (hrst : ∀ b ∈ s.rst.take n, b = false) :
    ∃ t, runN n s = some ([], t) ∧ t.Hangs op ∧ t.host.map (·.cmd) = s.host.map (·.cmd) ∧
      t.acquirer = s.acquirer ∧ t.rst = s.rst.drop n := by
  induction n generalizing s with
  | zero => exact ⟨s, rfl, h, rfl, rfl, rfl⟩
  | succ n ih =>
    have hr : resetNow s = false := by
      cases e : s.rst with
      | nil => simp [resetNow, e]
      | cons b l => simpa [resetNow, e] using hrst b (by simp [e])
    have htail : ∀ b ∈ s.rst.tail.take n, b = false := fun b hb => by
      rw [← Nat.add_sub_cancel n 1, ← List.tail_take_eq_take_tail] at hb
      exact hrst b (List.mem_of_mem_tail hb)
    obtain ⟨t, hrun, ht, hhost, hacq, hrest⟩ := ih (s := quiet (advanceInputs s)) h htail
    refine ⟨t, ?_, ht, by simpa using hhost, hacq, by simpa using hrest⟩
    rw [runN_succ_of_quiet (h.step_eq hr) rfl, hrun]

/-- Settles O44: a hanging machine goes on hanging until reset, which is then a step to `Idle` (R105). -/
theorem unansweredFetchHangsUntilReset : Obligations.UnansweredFetchHangsUntilReset := by
  intro s op hp ha
  have hs : s.Hangs op := ⟨hp, ha⟩
  refine ⟨fun hrst n => ?_, fun n k hrst => ?_⟩
  · obtain ⟨t, hrun, ⟨htp, -⟩, hhost, hacq, -⟩ := hs.run (n := n) fun b hb => hrst b (List.mem_of_mem_take hb)
    exact ⟨t, hrun, htp, hhost, hacq⟩
  · obtain ⟨t, hrun, -, hhost, -, hrest⟩ := hs.run (n := n) (by simp [hrst])
    have hr : resetNow t = true := by simp [resetNow, hrest, hrst]
    exact ⟨_, runN_append hrun (runN_one (step_of_reset hr)), rfl, by simpa using hhost⟩

end Sys2Proof.Machine
end

section
/-! PROOF. The encoding of commands and frames (spec/30_encoding.md R30 to R35): a command as a number, its operation,
the bits it ignores, and the fields of a frame in its bytes. -/

namespace Sys2Proof.Machine

/-! ### Commands as numbers -/

theorem bitsOfCommand_lt (c : Command) : bitsOfCommand c < 2 ^ 136 := by
  have hop := c.op.isLt
  have ha := c.a.isLt
  have hb := c.b.isLt
  unfold bitsOfCommand
  omega

theorem bitsOfCommand_mod_eight (c : Command) : bitsOfCommand c % 8 = c.op.toNat := by
  have hop := c.op.isLt
  unfold bitsOfCommand
  omega

/-- The numbering of log entry 12 loses no bit of a command. -/
theorem commandOfBits_bitsOfCommand (c : Command) : commandOfBits 136 (bitsOfCommand c) = .ok c := by
  have hlt := bitsOfCommand_lt c
  have hop := c.op.isLt
  have ha := c.a.isLt
  have hb := c.b.isLt
  have hop' : BitVec.ofNat 3 (bitsOfCommand c) = c.op := by
    apply BitVec.eq_of_toNat_eq
    rw [BitVec.toNat_ofNat, bitsOfCommand]
    omega
  have ha' : BitVec.ofNat 64 (bitsOfCommand c >>> 8) = c.a := by
    apply BitVec.eq_of_toNat_eq
    rw [BitVec.toNat_ofNat, Nat.shiftRight_eq_div_pow, bitsOfCommand]
    omega
  have hb' : BitVec.ofNat 64 (bitsOfCommand c >>> 72) = c.b := by
    apply BitVec.eq_of_toNat_eq
    rw [BitVec.toNat_ofNat, Nat.shiftRight_eq_div_pow, bitsOfCommand]
    omega
  simp only [commandOfBits, Nat.mod_eq_of_lt hlt, if_pos hlt, hop', ha', hb']

/-- R33, R34: the command of an operation selects it and carries its code. -/
theorem encode_roundTrip (i : Instr) : Laws.CommandRoundTrip.Statement i := by
  cases i with
  | decode r => exact Laws.CommandRoundTrip.decode r
  | rdtc => exact Laws.CommandRoundTrip.rdtc
  | rdcj => exact Laws.CommandRoundTrip.rdcj
  | rdf => exact Laws.CommandRoundTrip.rdf
  | rdflt => exact Laws.CommandRoundTrip.rdflt
  | rdraw => exact Laws.CommandRoundTrip.rdraw
  | linearize cj tc => exact Laws.CommandRoundTrip.linearize cj tc
  | reserved => exact Laws.CommandRoundTrip.reserved

/-- Settles O2: the numbering gives the command back, and the command its operation. -/
theorem decodingAnEncodedOperationGivesItBack : Obligations.DecodingAnEncodedOperationGivesItBack := by
  intro i
  obtain ⟨hdecode, hop⟩ := encode_roundTrip i
  exact ⟨decodeTableWord_eq_some_iff.mpr ⟨encode i, commandOfBits_bitsOfCommand _, hdecode⟩,
    by rw [bitsOfCommand_mod_eight, hop], bitsOfCommand_lt _⟩

/-- Settles O1, by evaluating the decoder on the ten words. -/
theorem tableWordsDecodeToTheirOperations : Obligations.TableWordsDecodeToTheirOperations := by
  unfold Obligations.TableWordsDecodeToTheirOperations
  decide

/-- The eight codes of R33. -/
theorem opCode_cases (op : OpCode) :
    op = 0#3 ∨ op = 1#3 ∨ op = 2#3 ∨ op = 3#3 ∨ op = 4#3 ∨ op = 5#3 ∨ op = 6#3 ∨ op = 7#3 := by
  decide +revert

/-- The code alone selects the operation (R33). -/
theorem opcode_decodeCommand (c : Command) : (decodeCommand c).opcode = c.op := by
  obtain ⟨op, a, b⟩ := c
  rcases opCode_cases op with rfl | rfl | rfl | rfl | rfl | rfl | rfl | rfl <;> rfl

/-- Only DECODE and LINEARIZE have operands (R34). -/
theorem decodeCommand_operands_ignored {op : OpCode} (h0 : op ≠ 0#3) (h6 : op ≠ 6#3) (a b a' b' : Word64) :
    decodeCommand ⟨op, a, b⟩ = decodeCommand ⟨op, a', b'⟩ := by
  rcases opCode_cases op with rfl | rfl | rfl | rfl | rfl | rfl | rfl | rfl
  · exact absurd rfl h0
  · rfl
  · rfl
  · rfl
  · rfl
  · rfl
  · exact absurd rfl h6
  · rfl

/-- Settles O3, by the eight codes. -/
theorem ignoredOperandBitsChangeNothing : Obligations.IgnoredOperandBitsChangeNothing :=
  ⟨opcode_decodeCommand, fun _ _ _ _ h => ⟨congrArg Instr.decode h, rfl⟩,
    fun _ a b a' b' h0 h6 => decodeCommand_operands_ignored h0 h6 a b a' b', fun _ _ => rfl⟩

/-! ### The fields of a frame in its bytes -/

/-- The lower part of a concatenation has the lower place value. -/
theorem toNat_append_eq_add {n m : Nat} (x : BitVec n) (y : BitVec m) :
    (x ++ y).toNat = x.toNat * 2 ^ m + y.toNat := by
  rw [BitVec.toNat_append, ← Nat.shiftLeft_add_eq_or_of_lt y.isLt, Nat.shiftLeft_eq]

theorem tcField_frameOfBytes (b0 b1 b2 b3 : Byte) :
    tcField (frameOfBytes b0 b1 b2 b3) = (b0 ++ b1.extractLsb' 2 6 : BitVec 14).toNat := by
  rw [tcField_eq, toNat_append_eq_add]
  simp only [BitVec.extractLsb'_toNat, toNat_frameOfBytes, Nat.shiftRight_eq_div_pow]
  omega

theorem cjField_frameOfBytes (b0 b1 b2 b3 : Byte) :
    cjField (frameOfBytes b0 b1 b2 b3) = (b2 ++ b3.extractLsb' 4 4 : BitVec 12).toNat := by
  rw [cjField_eq, toNat_append_eq_add]
  simp only [BitVec.extractLsb'_toNat, toNat_frameOfBytes, Nat.shiftRight_eq_div_pow]
  omega

theorem faultBits_frameOfBytes (b0 b1 b2 b3 : Byte) :
    faultBits (frameOfBytes b0 b1 b2 b3) = b3.extractLsb' 0 3 := by
  apply BitVec.eq_of_toNat_eq
  rw [faultBits_eq]
  simp only [BitVec.extractLsb'_toNat, toNat_frameOfBytes, Nat.shiftRight_zero]
  omega

/-- Settles O5, by the place values of the bytes (R22). -/
theorem fieldsLieInTheTransactionBytes : Obligations.FieldsLieInTheTransactionBytes := by
  intro b0 b1 b2 b3
  refine ⟨tcField_frameOfBytes b0 b1 b2 b3, cjField_frameOfBytes b0 b1 b2 b3, faultBits_frameOfBytes b0 b1 b2 b3,
    ?_, ?_, ?_⟩ <;>
  · simp only [frameOfBytes, BitVec.getLsbD_append]
    rfl

end Sys2Proof.Machine
end

section
/-! PROOF. The temperature encoding of the ports (spec/30_encoding.md R39): words, their fields, and the normal form
in which `enc` and `dec` agree. -/

namespace Sys2Proof.Machine

/-! ### Words and their fields -/

theorem exponentField_lt (w : Word64) : exponentField w < 2 ^ 11 := BitVec.isLt _

theorem fractionField_lt (w : Word64) : fractionField w < 2 ^ 52 := BitVec.isLt _

/-- A word written as sign, exponent and fraction (R39). -/
theorem append_eq_assemble (sg : BitVec 1) (e : BitVec 11) (f : BitVec 52) :
    sg ++ e ++ f = assemble (sg == 1#1) e.toNat f.toNat := by
  have hsg : BitVec.ofBool (sg == 1#1) = sg := by decide +revert
  simp [assemble, hsg]

/-- A word is assembled from its own fields. -/
theorem assemble_fields (w : Word64) : assemble (signBit w) (exponentField w) (fractionField w) = w := by
  have hsg : BitVec.ofBool (signBit w) = w.extractLsb' 63 1 := by
    ext i hi
    obtain rfl : i = 0 := by omega
    simp [signBit]
  rw [assemble, hsg, exponentField, fractionField, BitVec.ofNat_toNat, BitVec.ofNat_toNat, BitVec.setWidth_eq,
    BitVec.setWidth_eq]
  calc w.extractLsb' 63 1 ++ w.extractLsb' 52 11 ++ w.extractLsb' 0 52
      = w.extractLsb' 52 12 ++ w.extractLsb' 0 52 :=
        congrArg (· ++ _) (BitVec.extractLsb'_append_extractLsb'_eq_extractLsb' rfl)
    _ = w.extractLsb' 0 64 := BitVec.extractLsb'_append_extractLsb'_eq_extractLsb' rfl
    _ = w := BitVec.extractLsb'_eq_self

theorem getLsbD_zero_assemble (s : Bool) (e f : Nat) : (assemble s e f).getLsbD 0 = f.testBit 0 := by
  rw [assemble, BitVec.getLsbD_append, if_pos (by norm_num), BitVec.getLsbD_ofNat]
  rfl

/-! ### Significand and exponent -/

/-- `n * 2^(e - 52)` is how R39 writes a nonzero finite value: a normal one with its leading bit, or a subnormal one at
the lowest exponent. -/
structure IsNormalForm (n : Nat) (e : Int) : Prop where
  lowest : -1022 ≤ e
  highest : e ≤ 1023
  significand_lt : n < 2 ^ 53
  leading : 2 ^ 52 ≤ n ∨ (e = -1022 ∧ 0 < n)

/-- `(-1)^s * n * 2^(e - 52)`. -/
def scaledValue (s : Bool) (n : Nat) (e : Int) : Rat := (if s then -(n : Rat) else n) * 2 ^ (e - 52)

/-- The word of `scaledValue s n e` (R39). -/
def scaledWord (s : Bool) (n : Nat) (e : Int) : Word64 :=
  if n < 2 ^ 52 then assemble s 0 n else assemble s (e + 1023).toNat (n - 2 ^ 52)

theorem enc_scaledValue (s : Bool) {n : Nat} {e : Int} (h : IsNormalForm n e) :
    enc (.val (scaledValue s n e)) = some (scaledWord s n e) :=
  enc_scaled s h.lowest h.highest h.significand_lt h.leading

theorem dec_assemble (s : Bool) {e f : Nat} (he : e < 2 ^ 11) (hf : f < 2 ^ 52) :
    dec (assemble s e f) =
      if e = 2047 then (if f = 0 then none else some .fault)
      else if e = 0 then some (.val (scaledValue s f (-1022)))
      else some (.val (scaledValue s (2 ^ 52 + f) (e - 1023))) := by
  have h0 : scaledValue s 0 (-1022) = 0 := by simp [scaledValue]
  simp only [dec, signBit_assemble, exponentField_assemble s he hf, fractionField_assemble s hf, signedScaled_eq]
  split
  · rfl
  · split
    · split
      case isTrue hf0 => rw [hf0, h0]
      case isFalse => rfl
    · rw [scaledValue]
      congr 4
      ring

theorem dec_scaledWord (s : Bool) {n : Nat} {e : Int} (h : IsNormalForm n e) :
    dec (scaledWord s n e) = some (.val (scaledValue s n e)) := by
  obtain ⟨hlow, hhigh, hn, hlead⟩ := h
  by_cases hsub : n < 2 ^ 52
  · obtain rfl : e = -1022 := by omega
    rw [scaledWord, if_pos hsub, dec_assemble s (by norm_num) hsub, if_neg (by norm_num), if_pos rfl]
  · obtain ⟨k, hk⟩ := Int.eq_ofNat_of_zero_le (show 0 ≤ e + 1023 by omega)
    rw [scaledWord, if_neg hsub, hk, Int.toNat_natCast, dec_assemble s (by omega) (by omega),
      if_neg (by omega), if_neg (by omega), show 2 ^ 52 + (n - 2 ^ 52) = n by omega,
      show (k : Int) - 1023 = e by omega]

/-- Every word that decodes to a number is zero, with either sign, or the word of a normal form. -/
theorem exists_of_dec_eq_val {w : Word64} {q : Rat} (h : dec w = some (.val q)) :
    q = 0 ∨ ∃ s n e, IsNormalForm n e ∧ w = scaledWord s n e ∧ q = scaledValue s n e := by
  have he := exponentField_lt w
  have hf := fractionField_lt w
  rw [← assemble_fields w] at h ⊢
  generalize exponentField w = e at he h ⊢
  generalize fractionField w = f at hf h ⊢
  generalize signBit w = s at h ⊢
  rw [dec_assemble s he hf] at h
  split at h
  · split at h <;> cases h
  · split at h
    case isTrue he0 =>
      cases h
      by_cases hf0 : f = 0
      · exact .inl (by simp [scaledValue, hf0])
      · refine .inr ⟨s, f, -1022, ⟨by omega, by omega, by omega, by omega⟩, ?_, rfl⟩
        rw [scaledWord, if_pos hf, he0]
    case isFalse he0 =>
      cases h
      refine .inr ⟨s, 2 ^ 52 + f, e - 1023, ⟨by omega, by omega, by omega, by omega⟩, ?_, rfl⟩
      rw [scaledWord, if_neg (by omega), show ((e : Int) - 1023 + 1023).toNat = e by omega,
        Nat.add_sub_cancel_left]

theorem isBinary64_of_dec {w : Word64} {v : Rat} (h : dec w = some (.val v)) : isBinary64 v = true := by
  rcases exists_of_dec_eq_val h with rfl | ⟨s, n, e, hn, -, rfl⟩
  · rfl
  · rw [isBinary64, enc_scaledValue s hn]
    rfl

theorem abs_scaledValue (s : Bool) (n : Nat) (e : Int) : |scaledValue s n e| = n * 2 ^ (e - 52) := by
  rw [scaledValue, abs_mul, abs_of_pos (two_zpow_pos _)]
  cases s <;> simp

/-- A significand that rounds up to `2^53` is `2^52` at the next exponent. -/
theorem scaledValue_carry (s : Bool) (e : Int) : scaledValue s (2 ^ 53) e = scaledValue s (2 ^ 52) (e + 1) := by
  have hpow : (2 : Rat) ^ (e + 1 - 52) = 2 * 2 ^ (e - 52) := by
    rw [show e + 1 - 52 = 1 + (e - 52) by ring, ← two_zpow_mul, zpow_one]
  rw [scaledValue, scaledValue, hpow]
  cases s <;> norm_num <;> ring

/-- A value below `2^1024` with its leading bit set has an exponent of the format. -/
theorem exponent_le_of_abs_lt {s : Bool} {n : Nat} {e : Int} (hn : 2 ^ 52 ≤ n)
    (h : |scaledValue s n e| < (2 : Rat) ^ (1024 : Nat)) : e ≤ 1023 := by
  have hn' : (2 : Rat) ^ (52 : Int) ≤ n := by exact_mod_cast hn
  have hlt : (2 : Rat) ^ e < 2 ^ (1024 : Int) := by
    calc (2 : Rat) ^ e = 2 ^ (52 : Int) * 2 ^ (e - 52) := by rw [two_zpow_mul]; congr 1; ring
      _ ≤ n * 2 ^ (e - 52) := mul_le_mul_of_nonneg_right hn' (two_zpow_pos _).le
      _ < 2 ^ (1024 : Int) := by rw [← abs_scaledValue s]; exact_mod_cast h
  have := (zpow_lt_zpow_iff_right₀ (by norm_num : (1 : Rat) < 2)).mp hlt
  omega

/-- The magnitude of `q` in units of the spacing around it (R40 (b)). -/
def inSpacings (q : Rat) : Rat := |q| * 2 ^ (52 - spacingExponent |q|)

theorem inSpacings_nonneg (q : Rat) : 0 ≤ inSpacings q := mul_nonneg (abs_nonneg q) (two_zpow_pos _).le

theorem inSpacings_mul (q : Rat) : inSpacings q * 2 ^ (spacingExponent |q| - 52) = |q| := by
  rw [inSpacings, mul_assoc, two_zpow_mul, sub_add_sub_cancel', sub_self, zpow_zero, mul_one]

/-- Rounding rounds the significand (R40 (b)). -/
theorem roundNearest_eq {q : Rat} (hq : q ≠ 0) :
    roundNearest q = scaledValue (decide (q < 0)) (nearestEven (inSpacings q)) (spacingExponent |q|) := by
  simp [roundNearest, hq, scaledValue, inSpacings]

/-- The rounded significand has at most 53 bits, but for a carry to `2^53`. -/
theorem nearestEven_inSpacings {q : Rat} (hq : q ≠ 0) :
    nearestEven (inSpacings q) ≤ 2 ^ 53 ∧
      (2 ^ 52 ≤ nearestEven (inSpacings q) ∨ spacingExponent |q| = -1022) := by
  obtain ⟨n, hr, -, hn⟩ := roundNearest_spec hq
  have habs : |roundNearest q| = n * 2 ^ (spacingExponent |q| - 52) := by
    rw [← abs_scaledValue (decide (q < 0)), hr, scaledValue]
    simp only [decide_eq_true_eq]
  rw [roundNearest_eq hq, abs_scaledValue, mul_left_inj' (two_zpow_pos _).ne'] at habs
  rwa [Nat.cast_inj.mp habs]

/-- A nonzero rounding that stays in the format, in normal form. The significand is even where the rounded one is. -/
theorem roundNearest_normalForm {q : Rat} (h0 : roundNearest q ≠ 0)
    (hlt : |roundNearest q| < (2 : Rat) ^ (1024 : Nat)) :
    ∃ n e, IsNormalForm n e ∧ roundNearest q = scaledValue (decide (q < 0)) n e ∧
      (2 ∣ nearestEven (inSpacings q) → 2 ∣ n) := by
  have hq : q ≠ 0 := by
    rintro rfl
    exact h0 rfl
  have hlow : -1022 ≤ spacingExponent |q| := le_max_right _ _
  obtain ⟨hle, hlead⟩ := nearestEven_inSpacings hq
  rw [roundNearest_eq hq] at h0 hlt ⊢
  generalize nearestEven (inSpacings q) = n at *
  generalize spacingExponent |q| = e at *
  have hn : 0 < n := by
    refine Nat.pos_of_ne_zero ?_
    rintro rfl
    simp [scaledValue] at h0
  by_cases hcarry : n = 2 ^ 53
  · rw [hcarry, scaledValue_carry] at hlt ⊢
    have hhigh := exponent_le_of_abs_lt le_rfl hlt
    exact ⟨2 ^ 52, e + 1, ⟨by omega, hhigh, by norm_num, .inl le_rfl⟩, rfl, fun _ => by norm_num⟩
  · have hhigh : e ≤ 1023 := by
      rcases hlead with hlead | rfl
      · exact exponent_le_of_abs_lt hlead hlt
      · norm_num
    exact ⟨n, e, ⟨hlow, hhigh, by omega, by omega⟩, rfl, id⟩

theorem roundNearest_of_isBinary64 {v : Rat} (h : isBinary64 v = true) : roundNearest v = v := by
  have := roundNearest_nearest v h
  rw [sub_self, abs_zero] at this
  exact sub_eq_zero.mp (abs_nonpos_iff.mp this)

theorem abs_maxFinite_lt (q : Rat) : |maxFinite q| < (2 : Rat) ^ (1024 : Nat) := by
  have hpow : (2 : Rat) ^ (1024 : Nat) = 2 ^ 53 * 2 ^ (971 : Int) := by
    rw [← zpow_natCast, ← zpow_natCast, two_zpow_mul]
    rfl
  rw [abs_maxFinite, hpow]
  exact mul_lt_mul_of_pos_right (by norm_num) (two_zpow_pos _)

/-- Every nonzero finite binary64 value has a normal form: rounding leaves it as it is. -/
theorem isBinary64_normalForm {v : Rat} (h : isBinary64 v = true) (hv : v ≠ 0) :
    ∃ n e, IsNormalForm n e ∧ v = scaledValue (decide (v < 0)) n e := by
  have hround := roundNearest_of_isBinary64 h
  have hlt := (abs_le_maxFinite h v).trans_lt (abs_maxFinite_lt v)
  obtain ⟨n, e, hn, hval, -⟩ := roundNearest_normalForm (by rwa [hround]) (by rwa [hround])
  exact ⟨n, e, hn, by rwa [hround] at hval⟩

theorem dec_of_enc {t : Temp} {w : Word64} (h : enc t = some w) : dec w = some t := by
  cases t with
  | fault =>
    cases h
    rfl
  | val q =>
    by_cases hq : q = 0
    · subst hq
      cases h
      rfl
    · obtain ⟨n, e, hn, hval⟩ := isBinary64_normalForm (by rw [isBinary64, h]; rfl) hq
      rw [hval] at h ⊢
      rw [enc_scaledValue _ hn] at h
      cases h
      exact dec_scaledWord _ hn

theorem enc_of_dec {w : Word64} {q : Rat} (h : dec w = some (.val q)) (hq : q ≠ 0) : enc (.val q) = some w := by
  rcases exists_of_dec_eq_val h with h0 | ⟨s, n, e, hn, rfl, rfl⟩
  · exact absurd h0 hq
  · exact enc_scaledValue s hn

/-- Settles O7, by the normal form of a value and of a word. -/
theorem temperatureEncodingInvertsDecoding : Obligations.TemperatureEncodingInvertsDecoding := by
  refine ⟨fun _ _ => rfl, fun w q h => ?_, fun t w => dec_of_enc⟩
  split
  case isTrue hq =>
    subst hq
    rfl
  case isFalse hq => exact enc_of_dec h hq

theorem scaledValue_sign (sg : BitVec 1) (n : Nat) (e : Int) :
    scaledValue (sg == 1#1) n e = (-1) ^ sg.toNat * n * 2 ^ (e - 52) := by
  have hsg : sg = 0#1 ∨ sg = 1#1 := by decide +revert
  rcases hsg with rfl | rfl <;> simp [scaledValue]

/-- The two infinities, by their sign. -/
theorem isInfinity_iff (w : Word64) : isInfinity w = true ↔ w = assemble (signBit w) 2047 0 := by
  rw [isInfinity, Bool.and_eq_true, beq_iff_eq, beq_iff_eq]
  constructor
  · rintro ⟨he, hf⟩
    rw [← he, ← hf, assemble_fields]
  · intro h
    rw [h, exponentField_assemble _ (by norm_num) (by norm_num), fractionField_assemble _ (by norm_num)]
    exact ⟨rfl, rfl⟩

/-- Settles O6, by the fields of an assembled word. -/
theorem operandWordsDecodeAsBinary64 : Obligations.OperandWordsDecodeAsBinary64 := by
  refine ⟨fun sg e f => ?_, fun w => ?_⟩
  · have hf : f.toNat = 0 ↔ f = 0#52 := by rw [← BitVec.toNat_inj]; rfl
    have hexp : (e.toNat : Int) - 1023 - 52 = e.toNat - 1075 := by ring
    rw [append_eq_assemble, dec_assemble _ e.isLt f.isLt, scaledValue_sign, scaledValue_sign, hexp,
      show (-1022 : Int) - 52 = -1074 by norm_num]
    simp only [hf, Nat.cast_add, Nat.cast_pow, Nat.cast_ofNat]
  · rw [dec_eq_none_iff, isInfinity_iff]
    constructor
    · intro h
      cases hs : signBit w with
      | false => exact .inl (by rw [h, hs]; rfl)
      | true => exact .inr (by rw [h, hs]; rfl)
    · rintro (rfl | rfl) <;> rfl

end Sys2Proof.Machine
end

section
/-! PROOF. The result rounding (spec/30_encoding.md R40): nearest, ties to even, the accuracy contract, and other
conforming roundings (U11). -/

namespace Sys2Proof.Machine

/-! ### Ties -/

/-- `nearestEven x` is nearer than one half to `x`, or even. -/
theorem nearestEven_error_lt_or_even {x : Rat} (hx : 0 ≤ x) :
    |(nearestEven x : Rat) - x| < 1 / 2 ∨ 2 ∣ nearestEven x := by
  have hd : (0 : Rat) < x.den := by exact_mod_cast x.den_pos
  have hnum : (x.num.toNat : Rat) = x * x.den := by
    rw [Rat.mul_den_eq_num]
    exact_mod_cast Int.toNat_of_nonneg (Rat.num_nonneg.mpr hx)
  have hdiv : (x.den : Rat) * (x.num.toNat / x.den : Nat) + (x.num.toNat % x.den : Nat) = x * x.den := by
    rw [← hnum]
    exact_mod_cast Nat.div_add_mod x.num.toNat x.den
  have hmod : ((x.num.toNat % x.den : Nat) : Rat) < x.den := by exact_mod_cast Nat.mod_lt _ x.den_pos
  unfold nearestEven
  generalize x.num.toNat / x.den = n at *
  generalize x.num.toNat % x.den = m at *
  have hrest : x - n = m / x.den := by
    rw [eq_div_iff hd.ne']
    linarith
  dsimp only
  split
  case isTrue hdown =>
    have hsmall : (m : Rat) / x.den < 1 / 2 := by
      rw [div_lt_iff₀ hd]
      have : (2 * m : Rat) < x.den := by exact_mod_cast hdown
      linarith
    have hpos : 0 ≤ (m : Rat) / x.den := by positivity
    exact .inl (abs_lt.mpr ⟨by linarith, by linarith⟩)
  case isFalse =>
    split
    case isTrue hup =>
      have hlarge : 1 / 2 < (m : Rat) / x.den := by
        rw [lt_div_iff₀ hd]
        have : (x.den : Rat) < 2 * m := by exact_mod_cast hup
        linarith
      have hlt : (m : Rat) / x.den < 1 := (div_lt_one hd).mpr hmod
      push_cast
      exact .inl (abs_lt.mpr ⟨by linarith, by linarith⟩)
    case isFalse =>
      right
      split <;> omega

/-- The error of a rounding is that of the significand, scaled. -/
theorem abs_roundNearest_sub {q : Rat} (hq : q ≠ 0) :
    |roundNearest q - q| = |(nearestEven (inSpacings q) : Rat) - inSpacings q| * 2 ^ (spacingExponent |q| - 52) := by
  have hback := inSpacings_mul q
  rw [roundNearest_eq hq, scaledValue, ← abs_of_pos (two_zpow_pos (spacingExponent |q| - 52)), ← abs_mul,
    abs_of_pos (two_zpow_pos (spacingExponent |q| - 52))]
  by_cases h : q < 0
  · rw [if_pos (decide_eq_true h), ← abs_neg]
    congr 1
    linear_combination hback + abs_of_neg h
  · rw [if_neg (by simpa using h)]
    congr 1
    linear_combination hback + abs_of_nonneg (not_lt.mp h)

theorem roundNearest_onGrid {q : Rat} (hq : q ≠ 0) :
    ∃ m : Int, roundNearest q = m * 2 ^ (spacingExponent |q| - 52) := by
  rw [roundNearest_eq hq, scaledValue]
  split
  · exact ⟨-nearestEven (inSpacings q), by push_cast; rfl⟩
  · exact ⟨nearestEven (inSpacings q), by push_cast; rfl⟩

/-- A finite binary64 value is a multiple of the spacing around `q`, or lies below the power of two next below `q`. -/
theorem isBinary64_onGrid_or_below {v : Rat} (hv : isBinary64 v = true) {q : Rat} (hq : q ≠ 0) :
    (∃ z : Int, v = z * 2 ^ (spacingExponent |q| - 52)) ∨
      ((2 : Rat) ^ spacingExponent |q| ≤ |q| ∧ |v| < 2 ^ spacingExponent |q|) := by
  obtain ⟨z, f, rfl, hz, hf, -⟩ := isBinary64_shape hv
  by_cases hle : spacingExponent |q| ≤ f
  · refine .inl ⟨z * 2 ^ (f - spacingExponent |q|).toNat, ?_⟩
    push_cast
    rw [mul_assoc, ← zpow_natCast (2 : Rat) (f - spacingExponent |q|).toNat, Int.toNat_of_nonneg (by omega),
      two_zpow_mul, sub_add_sub_cancel]
  · have hexp : spacingExponent |q| = floorLog2 |q| := by
      rw [spacingExponent] at hle ⊢
      exact max_eq_left (by omega)
    have hz' : |(z : Rat)| < 2 ^ (53 : Int) := by exact_mod_cast hz
    refine .inr ⟨hexp ▸ (floorLog2_spec (abs_pos.mpr hq)).1, ?_⟩
    rw [abs_mul, abs_of_pos (two_zpow_pos (f - 52))]
    calc |(z : Rat)| * 2 ^ (f - 52) < 2 ^ (53 : Int) * 2 ^ (f - 52) :=
          mul_lt_mul_of_pos_right hz' (two_zpow_pos _)
      _ = 2 ^ (f + 1) := by rw [two_zpow_mul]; congr 1; ring
      _ ≤ 2 ^ spacingExponent |q| := zpow_le_zpow_right₀ (by norm_num) (by omega)

/-- The power of two next below `q` is a candidate of the rounding. -/
theorem abs_roundNearest_sub_le {q : Rat} (hq : q ≠ 0) (hlow : (2 : Rat) ^ spacingExponent |q| ≤ |q|) :
    |roundNearest q - q| ≤ |q| - 2 ^ spacingExponent |q| := by
  have hpow : ((2 ^ 52 : Int) : Rat) * 2 ^ (spacingExponent |q| - 52) = 2 ^ spacingExponent |q| := by
    rw [Int.cast_pow, Int.cast_ofNat, ← zpow_natCast, two_zpow_mul]
    congr 1
    push_cast
    ring
  refine le_of_le_of_eq ?_ ((abs_sub_comm _ _).trans (abs_of_nonneg (sub_nonneg.mpr hlow)))
  rcases lt_or_gt_of_ne hq with h | h
  · refine (roundNearest_le_grid hq (-2 ^ 52)).trans_eq ?_
    rw [Int.cast_neg, neg_mul, hpow, ← abs_neg]
    congr 1
    linear_combination abs_of_neg h
  · refine (roundNearest_le_grid hq (2 ^ 52)).trans_eq ?_
    rw [hpow]
    congr 1
    linear_combination abs_of_pos h

/-- Another finite binary64 value equally near is half the spacing away, and rounding has taken the even significand. -/
theorem even_of_tie {q v : Rat} (hq : q ≠ 0) (hv : isBinary64 v = true) (htie : |roundNearest q - q| = |v - q|)
    (hne : v ≠ roundNearest q) : 2 ∣ nearestEven (inSpacings q) := by
  refine (nearestEven_error_lt_or_even (inSpacings_nonneg q)).resolve_left fun hlt => ?_
  have herr : |roundNearest q - q| < 1 / 2 * 2 ^ (spacingExponent |q| - 52) := by
    rw [abs_roundNearest_sub hq]
    exact mul_lt_mul_of_pos_right hlt (two_zpow_pos _)
  rcases isBinary64_onGrid_or_below hv hq with ⟨z, hz⟩ | ⟨hlow, hbelow⟩
  · obtain ⟨m, hm⟩ := roundNearest_onGrid hq
    have hapart : 2 ^ (spacingExponent |q| - 52) ≤ |v - roundNearest q| := by
      have hzm : z ≠ m := by
        rintro rfl
        exact hne (hz.trans hm.symm)
      have h1 : (1 : Rat) ≤ |(z : Rat) - m| := by exact_mod_cast Int.one_le_abs (sub_ne_zero.mpr hzm)
      rw [hz, hm, ← sub_mul, abs_mul, abs_of_pos (two_zpow_pos _)]
      exact le_mul_of_one_le_left (two_zpow_pos _).le h1
    have htri := abs_sub_le v q (roundNearest q)
    rw [abs_sub_comm q] at htri
    linarith
  · have := abs_roundNearest_sub_le hq hlow
    have := abs_sub_abs_le_abs_sub q v
    rw [abs_sub_comm q] at this
    linarith

/-! ### The range in which the default rounding stays in the format -/

/-- Below `2^1024 - 2^970` the default rounding does not reach `2^1024` (log entry 8). -/
theorem abs_roundNearest_lt {q : Rat} (h : |q| < (2 : Rat) ^ (1024 : Nat) - 2 ^ (970 : Nat)) :
    |roundNearest q| < (2 : Rat) ^ (1024 : Nat) := by
  by_cases hq : q = 0
  · rw [hq, show roundNearest 0 = 0 from rfl, abs_zero]
    exact pow_pos (by norm_num) _
  have hlt : |q| < (2 : Rat) ^ (1024 : Int) := by
    have : |q| < (2 : Rat) ^ (1024 : Nat) := h.trans (sub_lt_self _ (pow_pos (by norm_num) _))
    exact_mod_cast this
  have he : spacingExponent |q| ≤ 1023 := by
    have := floorLog2_lt (abs_pos.mpr hq) hlt
    exact max_le (by omega) (by norm_num)
  have herr : |roundNearest q - q| ≤ 2 ^ (970 : Nat) := by
    rw [← zpow_natCast]
    exact (roundNearest_error hq).trans (zpow_le_zpow_right₀ (by norm_num) (by push_cast; omega))
  calc |roundNearest q| = |q + (roundNearest q - q)| := by rw [add_sub_cancel]
    _ ≤ |q| + |roundNearest q - q| := abs_add_le _ _
    _ ≤ |q| + 2 ^ (970 : Nat) := by gcongr
    _ < 2 ^ (1024 : Nat) := lt_sub_iff_add_lt.mp h

theorem rnd_eq_roundNearest {q : Rat} (h : |q| < (2 : Rat) ^ (1024 : Nat) - 2 ^ (970 : Nat)) :
    rnd q = roundNearest q := by
  have : atLeast2Pow1024 (roundNearest q) = false := by
    rw [← Bool.not_eq_true, atLeast2Pow1024_iff, not_le]
    exact abs_roundNearest_lt h
  rw [rnd, this, if_neg Bool.false_ne_true]

/-! ### The last bit -/

/-- The last bit of a word is that of its significand. -/
theorem getLsbD_zero_scaledWord (s : Bool) (n : Nat) (e : Int) : (scaledWord s n e).getLsbD 0 = n.testBit 0 := by
  unfold scaledWord
  split
  · exact getLsbD_zero_assemble s 0 n
  · rw [getLsbD_zero_assemble, Nat.testBit_zero, Nat.testBit_zero]
    exact decide_eq_decide.mpr (by omega)

/-- Where the rounded significand is even, so is the word of the result. -/
theorem getLsbD_zero_enc_roundNearest {q : Rat} {w : Word64} (hw : enc (.val (roundNearest q)) = some w)
    (hlt : |roundNearest q| < (2 : Rat) ^ (1024 : Nat)) (heven : 2 ∣ nearestEven (inSpacings q)) :
    w.getLsbD 0 = false := by
  by_cases h0 : roundNearest q = 0
  · rw [h0] at hw
    cases hw
    rfl
  · obtain ⟨n, e, hn, hval, hpar⟩ := roundNearest_normalForm h0 hlt
    rw [hval, enc_scaledValue _ hn] at hw
    cases hw
    rw [getLsbD_zero_scaledWord, Nat.testBit_zero, decide_eq_false_iff_not]
    have := hpar heven
    omega

/-- Settles O24: in this range `RND` is the default rounding, no finite value is nearer, and a tie is half a spacing on
both sides, where `nearestEven` takes the even significand. -/
theorem roundingIsToNearestTiesToEven : Obligations.RoundingIsToNearestTiesToEven := by
  intro q hlt
  rw [rnd_eq_roundNearest hlt]
  have hround := abs_roundNearest_lt hlt
  obtain ⟨w, hw⟩ := Option.isSome_iff_exists.mp (rnd_eq_roundNearest hlt ▸ isBinary64_rnd q)
  refine ⟨w, hw, fun w' v hv => ⟨roundNearest_nearest q (isBinary64_of_dec hv), fun htie hne => ?_⟩⟩
  have hq : q ≠ 0 := by
    rintro rfl
    rw [show roundNearest 0 = 0 from rfl] at htie hne
    simp only [sub_zero, abs_zero] at htie
    exact hne (abs_eq_zero.mp htie.symm)
  exact getLsbD_zero_enc_roundNearest hw hround (even_of_tie hq (isBinary64_of_dec hv) htie hne)

/-! ### The accuracy contract -/

theorem ten_zpow_neg_six : (10 : Rat) ^ (-6 : Int) = 1 / 1000000 := by norm_num

/-- Settles O25: `RND` is conforming, and on the normal range one rounding is within `2^-53`. -/
theorem roundingKeepsTheAccuracyContract : Obligations.RoundingKeepsTheAccuracyContract := by
  unfold Obligations.RoundingKeepsTheAccuracyContract
  simp only [ten_zpow_neg_six]
  refine ⟨rfl, fun q => ⟨Option.isSome_iff_exists.mp (isBinary64_rnd q), fun hlo hhi => ?_, fun w v hv hvq => ?_,
    fun hlo hhi => ?_⟩⟩
  · exact ((keepsContract_iff _ _).mp (keepsContract_rnd hlo hhi)).2
  · have hkeeps := conforming_rnd.2.2 q v ((keepsContract_iff v q).mpr ⟨isBinary64_of_dec hv, hvq⟩)
    exact ((keepsContract_iff _ _).mp hkeeps).2
  · rw [rnd_eq_roundNearest hhi]
    exact roundNearest_relative_error hlo

/-! ### Other conforming roundings -/

/-- LINEARIZE on two numbers: the rounding is applied to the exact result and nowhere else (R60, R70, R73). -/
theorem linearizeTemp_vals (R : Rat → Rat) (c t : Rat) :
    linearizeTemp R (.val c) (.val t) = (corrected (vtotal c t)).elim (some .fault) fun q =>
      if atLeast2Pow1024 q then none else some (.val (R q)) := by
  rcases linearizeTemp_cases R (.val c) (.val t) with ⟨h | h, -⟩ | ⟨c', t', hc, ht, h⟩
  · cases h
  · cases h
  · cases hc
    cases ht
    rcases h with ⟨hn, e⟩ | ⟨q, hq, ⟨hb, e⟩ | ⟨hb, e⟩⟩
    · rw [e, hn, Option.elim_none]
    · rw [e, hq, Option.elim_some, if_pos hb]
    · rw [e, hq, Option.elim_some, hb, if_neg Bool.false_ne_true]

/-- `Fault` and the refusal do not depend on the rounding (U11). -/
theorem linearizeTemp_rounding (R R' : Rat → Rat) (cj tc : Temp) :
    (linearizeTemp R cj tc = some .fault ↔ linearizeTemp R' cj tc = some .fault) ∧
    (linearizeTemp R cj tc = none ↔ linearizeTemp R' cj tc = none) := by
  cases cj with
  | fault => exact ⟨Iff.rfl, Iff.rfl⟩
  | val c =>
    cases tc with
    | fault => exact ⟨Iff.rfl, Iff.rfl⟩
    | val t =>
      rw [linearizeTemp_vals, linearizeTemp_vals]
      cases corrected (vtotal c t) with
      | none => exact ⟨Iff.rfl, Iff.rfl⟩
      | some q =>
        rw [Option.elim_some, Option.elim_some]
        split <;> simp

/-- An exact result below `2^1024` is rounded and delivered (R60, R73). -/
theorem linearizeTemp_of_corrected (R : Rat → Rat) {c t T : Rat} (hT : corrected (vtotal c t) = some T)
    (hlt : |T| < (2 : Rat) ^ (1024 : Nat)) : linearizeTemp R (.val c) (.val t) = some (.val (R T)) := by
  have hfits : ¬ atLeast2Pow1024 T = true := by
    rw [atLeast2Pow1024_iff, not_le]
    exact hlt
  rw [linearizeTemp_vals, hT, Option.elim_some, if_neg hfits]

/-- A conforming rounding keeps the bound wherever the model's own does. -/
theorem Conforming.error_le {R : Rat → Rat} (h : Conforming R) {q : Rat}
    (hlo : 10 ^ 6 * (2 : Rat) ^ (-1075 : Int) ≤ |q|) (hhi : |q| < (2 : Rat) ^ (1024 : Nat)) :
    |R q - q| ≤ 1 / 1000000 * |q| :=
  ((keepsContract_iff _ _).mp (h.2.2 q _ (keepsContract_rnd hlo hhi))).2

/-- Settles O26, by the one place where LINEARIZE rounds and the bound both roundings keep there. -/
theorem conformingRoundingsAgreeUpToTheContract : Obligations.ConformingRoundingsAgreeUpToTheContract := by
  intro R R' cj tc hR hR'
  obtain ⟨hfault, hnone⟩ := linearizeTemp_rounding R R' cj tc
  refine ⟨hfault, hnone, ?_⟩
  rintro c t T rfl rfl hT hlt
  obtain ⟨w, hw⟩ := Option.isSome_iff_exists.mp (hR.2.1 T)
  obtain ⟨w', hw'⟩ := Option.isSome_iff_exists.mp (hR'.2.1 T)
  refine ⟨R T, R' T, w, w', linearizeTemp_of_corrected R hT hlt, linearizeTemp_of_corrected R' hT hlt, hw, hw',
    ?_, fun hlo => ?_⟩
  · rintro rfl
    exact ⟨hR.1, hR'.1⟩
  · have htri := abs_sub_le (R T) T (R' T)
    have herr := hR.error_le hlo hlt
    have herr' := hR'.error_le hlo hlt
    rw [abs_sub_comm] at herr'
    rw [mul_assoc, ten_zpow_neg_six]
    linarith only [htri, herr, herr']

end Sys2Proof.Machine
end

section
/-! PROOF. The ports and their handshakes (spec/30_encoding.md R34, R41), and which commands are refused (R37, R73). -/

namespace Sys2Proof.Machine

/-! ### Response ports -/

/-- RDRAW's word on its port (R85). -/
theorem rdrawResponse_x (r : Frame) :
    (rdrawResponse r).x = some (if faultBits r ≠ 0#3 then 0#64 else r.setWidth 64) := by
  by_cases h : faultBits r = 0#3 <;> simp [rdrawResponse, Response.x, rawFault, h]

/-- Settles O36, by the response each operation delivers. -/
theorem responsePortsCarryTheirTableRow : Obligations.ResponsePortsCarryTheirTableRow := by
  refine ⟨fun r s t h => ?_, fun a b s t h => ?_, fun op s t r k hp ha h => ?_⟩
  · cases h
    exact ⟨rfl, rfl, rfl, rfl, congrArg some (faultBits_eq r), rfl⟩
  · obtain ⟨x, hx, rfl⟩ := next_of_not_fetches rfl h
    obtain ⟨cj, tc, T, -, -, hT, rfl⟩ := responseOf_linearize hx
    exact ⟨rfl, rfl, rfl, rfl, rfl, T, hx, rfl, Option.isSome_iff_ne_none.mp (enc_linearizeTemp_rnd_isSome hT)⟩
  · rcases next_of_readOp h with ⟨r', k', -, ha', rfl⟩ | ⟨hn, -, -⟩
    · cases ha.symm.trans ha'
      rw [← faultBits_eq]
      cases op with
      | rdtc => exact ⟨rfl, rfl, rfl, rfl, rfl, rfl, rfl⟩
      | rdcj => exact ⟨rfl, rfl, rfl, rfl, rfl, rfl, rfl⟩
      | rdf => exact ⟨rfl, rfl, rfl, rfl, rfl, rfl, rfl⟩
      | rdflt => exact ⟨rfl, rfl, rfl, rfl, rfl, rfl, rfl⟩
      | rdraw => exact ⟨rfl, rfl, rfl, rfl, rfl, rdrawResponse_x r, rfl⟩
    · exact absurd ha (hn hp r k)

/-! ### Handshakes -/

theorem cmdReady_iff (s : State) : s.cmdReady = true ↔ s.phase = .idle := by
  simp [State.cmdReady]

theorem acqReq_iff (s : State) : s.acqReq = true ↔ ∃ op, s.phase = .waitFetch op := by
  unfold State.acqReq
  cases s.phase <;> simp

theorem acqData_eq_some_iff {s : State} {r : Frame} :
    s.acqData = some r ↔ ∃ op k, s.phase = .waitFetch op ∧ s.acquirer = .answer 0 r :: k := by
  unfold State.acqData
  split
  case h_1 op r' k hp ha => simp [hp, ha]
  case h_2 hno =>
    simp only [reduceCtorEq, false_iff]
    rintro ⟨op, k, hp, ha⟩
    exact hno op r k hp ha

/-- A command on the port in `Idle` that is not admitted is refused by executing it (R37, R73; log entry 11). -/
theorem step_of_not_admitted {s : State} {c : Command} (hr : resetNow s = false) (hp : s.phase = .idle)
    (hc : s.cmdPort = some c) (hw : (decodeCommand c).wellFormed = false) :
    step s = exec (decodeCommand c) (advanceInputs s) := by
  rw [step_of_idle hr hp, hc]
  simp [acceptCommand, admittedOperation_eq_none_iff.mpr hw]

/-- A fetch answered in this step ends in the response owed. -/
theorem step_of_answered {s : State} {op : ReadOp} {r : Frame} {k : List FetchAnswer} (hr : resetNow s = false)
    (hp : s.phase = .waitFetch op) (ha : s.acquirer = .answer 0 r :: k) :
    step s = .next (respond (readResponse op r) { advanceInputs s with acquirer := k }) := by
  rw [step_of_waitFetch hr hp, exec_readOp]
  rcases readOperation_cases op (readResponse op) (advanceInputs s) with
    ⟨hp', -⟩ | ⟨-, ⟨r', k', ha', e⟩ | ⟨d, r', k', ha', -⟩ | ⟨ha' | ⟨k', ha'⟩, -⟩⟩
  · exact absurd hp hp'
  · cases ha.symm.trans ha'
    exact e
  · cases ha.symm.trans ha'
  · cases ha.symm.trans ha'
  · cases ha.symm.trans ha'

/-- Settles O37, by the moves from `Idle` and from `WaitFetch`; that no other step accepts a command is O43. -/
theorem handshakesAcceptCommandsAndFrames : Obligations.HandshakesAcceptCommandsAndFrames := by
  refine fun s => ⟨cmdReady_iff s, acqReq_iff s, fun hr => ⟨fun c hc hready => ⟨fun o hd hw => ?_, fun hw => ?_⟩,
    fun t o h ho => ?_, fun r hdata => ?_⟩⟩
  · obtain ⟨k, hk⟩ := cmdPort_eq_some_iff.mp hc
    refine ⟨_, step_of_presented hr ((cmdReady_iff s).mp hready) hk (admittedOperation_eq_some_iff.mpr ⟨hd, hw⟩),
      rfl, ?_, rfl⟩
    simp [hk]
  · obtain ⟨ρ, hρ⟩ := exec_refused_of_not_wellFormed hw
    exact ⟨ρ, (step_of_not_admitted hr ((cmdReady_iff s).mp hready) hc hw).trans (hρ _)⟩
  · rcases everyStepIsAMoveOfTheInFlightRecord s t hr h with
      ⟨-, hp, -⟩ | ⟨c, k, o', hidle, hk, hd, hw, hp, -, -⟩ | ⟨o', op, -, -, hp, -⟩ | ⟨o', x, -, -, -, hp, -⟩ |
      ⟨op, r, k, -, -, -, hp, -⟩ | ⟨op, -, -, hp, -⟩ <;> rw [ho] at hp <;> cases hp
    exact ⟨(cmdReady_iff s).mpr hidle, hw, c, cmdPort_eq_some_iff.mpr ⟨k, hk⟩, hd⟩
  · obtain ⟨op, k, hp, ha⟩ := acqData_eq_some_iff.mp hdata
    exact ⟨_, op, hp, step_of_answered hr hp ha, rfl, rfl, rfl, (responseOf_readOp op r).symm⟩

/-! ### Refusals -/

/-- An admitted LINEARIZE has two temperatures and an answer (R73). -/
theorem linearizeTemp_of_wellFormed {a b : Word64} (h : (Instr.linearize a b).wellFormed = true) :
    ∃ cj tc t, dec a = some cj ∧ dec b = some tc ∧ linearizeTemp rnd cj tc = some t := by
  simp only [Instr.wellFormed, operandsFinite, Bool.and_eq_true, Bool.not_eq_true', ← Bool.not_eq_true,
    ← dec_eq_none_iff] at h
  obtain ⟨⟨ha, hb⟩, hfits⟩ := h
  obtain ⟨cj, ha⟩ := Option.ne_none_iff_exists'.mp ha
  obtain ⟨tc, hb⟩ := Option.ne_none_iff_exists'.mp hb
  rw [resultFits, ha, hb] at hfits
  obtain ⟨t, ht⟩ := Option.isSome_iff_exists.mp hfits
  exact ⟨cj, tc, t, ha, hb, ht⟩

/-- An admitted operation is executed in every state. -/
theorem exec_next_of_wellFormed {i : Instr} (h : i.wellFormed = true) (s : State) : ∃ t, exec i s = .next t := by
  cases hf : fetches i with
  | true =>
    obtain ⟨op, rfl⟩ := (fetches_iff i).mp hf
    rw [exec_readOp]
    rcases readOperation_cases op (readResponse op) s with
      ⟨-, e⟩ | ⟨-, ⟨r, k, -, e⟩ | ⟨d, r, k, -, e⟩ | ⟨-, e⟩⟩ <;> exact ⟨_, e⟩
  | false =>
    cases i with
    | decode r => exact ⟨_, rfl⟩
    | linearize a b =>
      obtain ⟨cj, tc, t, ha, hb, ht⟩ := linearizeTemp_of_wellFormed h
      exact ⟨_, (execLinearize_of_dec ha hb s).1 t ht⟩
    | reserved => cases h
    | rdtc => cases hf
    | rdcj => cases hf
    | rdf => cases hf
    | rdflt => cases hf
    | rdraw => cases hf

/-- Settles O50: from `Idle` the command on the port is refused by `exec`; a legal command in flight is admitted. -/
theorem legalStatesRefuseOnlyAtAcceptance : Obligations.LegalStatesRefuseOnlyAtAcceptance := by
  refine fun s ρ hlegal => ⟨fun h => ?_, nofun⟩
  cases hr : resetNow s with
  | true =>
    rw [step_of_reset hr] at h
    cases h
  | false =>
    have hadm : s.phase.admitted = true := by
      rw [State.legal, Bool.and_eq_true] at hlegal
      exact hlegal.1
    cases hp : s.phase with
    | busy o =>
      rw [hp] at hadm
      obtain ⟨t, ht⟩ := exec_next_of_wellFormed hadm (advanceInputs s)
      rw [step_of_busy hr hp, ht] at h
      cases h
    | waitFetch op =>
      obtain ⟨t, ht⟩ := exec_next_of_wellFormed (wellFormed_readOp op) (advanceInputs s)
      rw [step_of_waitFetch hr hp, ht] at h
      cases h
    | idle =>
      rw [step_of_idle hr hp] at h
      rcases acceptCommand_cases exec s.cmdPort (advanceInputs s) with
        ⟨c, o, -, -, -, e⟩ | ⟨c, hc, hw, e⟩ | ⟨-, e⟩ <;> rw [e] at h
      · cases h
      · obtain ⟨ρ', hρ⟩ := exec_refused_of_not_wellFormed hw
        exact ⟨rfl, hr, c, hc, hw, by rw [hρ, ← h, hρ]⟩
      · cases h

/-! ### The reserved code -/

theorem opcode_operation_ne (o : Operation) : o.instr.opcode ≠ 7#3 := by
  cases o <;> simp [Operation.instr, Instr.opcode]

/-- Settles O45: code 7 selects no operation, so the step that would accept it refuses it. -/
theorem reservedCodeIsRefused : Obligations.ReservedCodeIsRefused := by
  refine ⟨fun s => rfl, fun s a b k hr hp hh => ?_, opcode_operation_ne⟩
  have hstep : step s = .refused .reservedOperationCode :=
    step_of_not_admitted hr hp (cmdPort_eq_some_iff.mpr ⟨k, hh⟩) rfl
  exact ⟨hstep, fun n => by simp [runN, hstep]⟩

end Sys2Proof.Machine
end

section
/-! PROOF. The frame decoder (spec/40_decode.md R45 to R58): sign extension, the readings of R53 in terms of the slices
of the frame, and what each of its bits can change. -/

namespace Sys2Proof.Machine

/-! ### Sign extension -/

/-- The bits R47 ORs in lie above the field, so OR-ing them in adds them. -/
theorem extend_eq {v n w : Nat} (hnw : n ≤ w) (hv : v < 2 ^ n) :
    extend v n w = if v.testBit (n - 1) then v + 2 ^ w - 2 ^ n else v := by
  have hpow : 2 ^ n ≤ 2 ^ w := Nat.pow_le_pow_right two_pos hnw
  have hmask : 2 ^ w - 1 - (2 ^ n - 1) = (2 ^ (w - n) - 1) <<< n := by
    rw [Nat.shiftLeft_eq, Nat.sub_mul, ← pow_add, Nat.sub_add_cancel hnw]
    have := Nat.two_pow_pos n
    omega
  have hadd : v ||| (2 ^ w - 1 - (2 ^ n - 1)) = v + 2 ^ w - 2 ^ n := by
    rw [hmask, Nat.or_comm, ← Nat.shiftLeft_add_eq_or_of_lt hv, ← hmask]
    have := Nat.two_pow_pos n
    omega
  rw [extend, hadd]

/-- The top bit of a field says which half of its range it is in. -/
theorem testBit_top_eq {v m : Nat} (hv : v < 2 ^ (m + 1)) : v.testBit m = decide (2 ^ m ≤ v) := by
  by_cases h : 2 ^ m ≤ v
  · simp [h, Nat.testBit_of_two_pow_le_and_two_pow_add_one_gt h hv]
  · simp [h, Nat.testBit_lt_two_pow (not_le.mp h)]

/-- Sign extension in any working width is the two's complement reading of the field (R47). -/
theorem signExtend_eq {n w v : Nat} (hn : 0 < n) (hnw : n ≤ w) (hv : v < 2 ^ n) :
    signExtend n w v = if v < 2 ^ (n - 1) then (v : Int) else (v : Int) - 2 ^ n := by
  obtain ⟨m, rfl⟩ := Nat.exists_eq_add_one_of_ne_zero hn.ne'
  obtain ⟨k, rfl⟩ := Nat.exists_eq_add_one_of_ne_zero (show w ≠ 0 by omega)
  have hpow : 2 ^ m ≤ 2 ^ k := Nat.pow_le_pow_right two_pos (by omega)
  have hm : 2 ^ (m + 1) = 2 * 2 ^ m := pow_succ' 2 m
  have hk : 2 ^ (k + 1) = 2 * 2 ^ k := pow_succ' 2 k
  rw [signExtend, extend_eq hnw hv, readSigned, Nat.add_sub_cancel, Nat.add_sub_cancel, testBit_top_eq hv]
  by_cases htop : 2 ^ m ≤ v
  · have hneg : ¬ v + 2 ^ (k + 1) - 2 ^ (m + 1) < 2 ^ k := by omega
    have hle : 2 ^ (m + 1) ≤ v + 2 ^ (k + 1) := by omega
    simp only [htop, decide_true, if_true, hneg, if_false, not_lt.mpr htop, Nat.cast_sub hle]
    push_cast
    ring
  · simp [htop, not_le.mp htop, (not_le.mp htop).trans_le hpow]

/-- The two's complement reading is the signed value of the slice, as `BitVec` has it. -/
theorem signExtend_toNat {n w : Nat} (hn : 0 < n) (hnw : n ≤ w) (x : BitVec n) :
    signExtend n w x.toNat = x.toInt := by
  obtain ⟨m, rfl⟩ := Nat.exists_eq_add_one_of_ne_zero hn.ne'
  have hhalf : 2 * x.toNat < 2 ^ (m + 1) ↔ x.toNat < 2 ^ m := by
    rw [pow_succ']
    omega
  rw [signExtend_eq hn hnw x.isLt, BitVec.toInt_eq_toNat_cond, Nat.add_sub_cancel]
  simp only [hhalf, Nat.cast_pow, Nat.cast_ofNat]

theorem tcCount_eq (r : Frame) : tcCount r = (r.extractLsb' 18 14).toInt := by
  rw [tcCount, tcField_eq]
  exact signExtend_toNat (n := 14) (by norm_num) (by norm_num [Config.workingWidth]) _

theorem cjCount_eq (r : Frame) : cjCount r = (r.extractLsb' 4 12).toInt := by
  rw [cjCount, cjField_eq]
  exact signExtend_toNat (n := 12) (by norm_num) (by norm_num [Config.workingWidth]) _

theorem tcCount_range (r : Frame) : -8192 ≤ tcCount r ∧ tcCount r ≤ 8191 := by
  rw [tcCount_eq]
  exact ⟨BitVec.le_toInt _, Int.le_sub_one_of_lt BitVec.toInt_lt⟩

theorem cjCount_range (r : Frame) : -2048 ≤ cjCount r ∧ cjCount r ≤ 2047 := by
  rw [cjCount_eq]
  exact ⟨BitVec.le_toInt _, Int.le_sub_one_of_lt BitVec.toInt_lt⟩

/-- Settles O8, by the bits OR-ed in being those above the field, and by the range of a signed slice. -/
theorem signExtensionDoesNotDependOnTheWorkingWidth : Obligations.SignExtensionDoesNotDependOnTheWorkingWidth :=
  ⟨fun _ _ _ hn hnw hv => ⟨extend_eq hnw hv, signExtend_eq hn hnw hv⟩, tcCount_range, cjCount_range⟩

/-! ### The reading of a frame -/

/-- The thermocouple weight (R48). -/
theorem tcDegrees_eq (r : Frame) : tcDegrees r = tcCount r / 4 := by
  rw [tcDegrees, ratMul_eq, ratOfInt_eq, Config.tcLsb, Rat.mkRat_eq_div]
  ring

/-- The cold-junction weight (R49). -/
theorem cjDegrees_eq (r : Frame) : cjDegrees r = cjCount r / 16 := by
  rw [cjDegrees, ratMul_eq, ratOfInt_eq, Config.cjLsb, Rat.mkRat_eq_div]
  ring

/-- The table of R53, over the slices of the frame. -/
theorem decodeFrame_eq (r : Frame) :
    decodeFrame r =
      { tc := if r = 0#32 ∨ r.extractLsb' 0 3 ≠ 0#3 then .fault
              else .val ((r.extractLsb' 18 14).toInt / 4)
        cj := if r = 0#32 then .fault else .val ((r.extractLsb' 4 12).toInt / 16)
        flags := r.extractLsb' 0 3 } := by
  rw [decodeFrame, tcDegrees_eq, cjDegrees_eq, tcCount_eq, cjCount_eq, faultBits_eq]
  simp only [noDevice_iff, ite_or]

/-- The last row of R53. -/
theorem decodeFrame_of_valid {r : Frame} (h : r ≠ 0#32) (hflags : r.extractLsb' 0 3 = 0#3) :
    decodeFrame r =
      { tc := .val ((r.extractLsb' 18 14).toInt / 4)
        cj := .val ((r.extractLsb' 4 12).toInt / 16)
        flags := 0#3 } := by
  rw [decodeFrame_eq, hflags]
  simp [h]

theorem noDevice_eq_decide (r : Frame) : noDevice r = decide (r = 0#32) := rfl

theorem noDevice_eq_false {r : Frame} (h : r ≠ 0#32) : noDevice r = false :=
  Bool.eq_false_iff.mpr fun h0 => h ((noDevice_iff r).mp h0)

/-- Settles O9: DECODE delivers the reading in the state it is in. -/
theorem decodeAnswersTheTableOfReadings : Obligations.DecodeAnswersTheTableOfReadings := by
  intro r s
  rw [← decodeFrame_eq, ← noDevice_eq_decide]
  rfl

/-! ### When a temperature is `Fault` -/

@[simp] theorem decodeFrame_flags (r : Frame) : (decodeFrame r).flags = r.extractLsb' 0 3 := faultBits_eq r

theorem decodeFrame_tc_eq_fault_iff (r : Frame) :
    (decodeFrame r).tc = .fault ↔ r = 0#32 ∨ r.extractLsb' 0 3 ≠ 0#3 := by
  rw [decodeFrame_eq]
  simp only [ite_eq_left_iff, reduceCtorEq, imp_false, not_not]

theorem decodeFrame_cj_eq_fault_iff (r : Frame) : (decodeFrame r).cj = .fault ↔ r = 0#32 := by
  rw [decodeFrame_eq]
  simp only [ite_eq_left_iff, reduceCtorEq, imp_false, not_not]

/-- The conditions DECODE reports, bit by bit (R50, R51). -/
theorem mem_reported_decode_iff (c : Condition) (r q : Frame) :
    c ∈ reported (.decode r) q ↔
      match c with
      | .openCircuit => r.getLsbD 0 = true
      | .shortToGnd => r.getLsbD 1 = true
      | .shortToVcc => r.getLsbD 2 = true
      | .noDevice => r = 0#32
      | .outOfRange => False := by
  cases c <;> simp [reported, sensorConditions, absenceConditions]

theorem ne_zero_of_getLsbD {r : Frame} {k : Nat} (h : r.getLsbD k = true) : r ≠ 0#32 := by
  rintro rfl
  simp at h

/-- Settles O10, by when the thermocouple temperature is `Fault`: bit 16 makes a frame non-zero and no more. -/
theorem faultBitsAloneInvalidateTheThermocouple : Obligations.FaultBitsAloneInvalidateTheThermocouple := by
  intro r
  have hfault : r.extractLsb' 0 3 ≠ 0#3 → (decodeFrame r).tc = .fault := fun h =>
    (decodeFrame_tc_eq_fault_iff r).mpr (.inr h)
  refine ⟨decodeFrame_flags r, hfault, mem_reported_decode_iff .openCircuit r r,
    mem_reported_decode_iff .shortToGnd r r, mem_reported_decode_iff .shortToVcc r r, fun h16 hflags htc => ?_,
    fun _ => hfault⟩
  rcases (decodeFrame_tc_eq_fault_iff r).mp htc with h0 | hset
  · exact ne_zero_of_getLsbD h16 h0
  · exact hset hflags

/-- Settles O11: the all-zero frame has no flag, so it alone has `Fault` without one. -/
theorem noDeviceIsTheAllZeroFrameAlone : Obligations.NoDeviceIsTheAllZeroFrameAlone := by
  intro r
  have hflags : r = 0#32 → r.extractLsb' 0 3 = 0#3 := fun h => h ▸ BitVec.extractLsb'_zero
  have htc := decodeFrame_tc_eq_fault_iff r
  have hcj := decodeFrame_cj_eq_fault_iff r
  rw [decodeFrame_flags]
  refine ⟨noDevice_iff r, fun h => ⟨htc.mpr (.inl h), hcj.mpr h, hflags h⟩, (noDevice_iff r).trans hcj.symm, ?_,
    htc.trans or_comm, fun h => htc.mpr (.inl (hcj.mp h)), fun hset h => hset (hflags (hcj.mp h))⟩
  rw [noDevice_iff, htc]
  exact ⟨fun h => ⟨.inl h, hflags h⟩, fun ⟨h, hclear⟩ => h.resolve_right (not_not_intro hclear)⟩

/-! ### Bits that change no reading -/

theorem extractLsb'_congr {r r' : Frame} {start len : Nat}
    (h : ∀ i < len, r.getLsbD (start + i) = r'.getLsbD (start + i)) :
    r.extractLsb' start len = r'.extractLsb' start len := by
  apply BitVec.eq_of_getLsbD_eq
  intro i hi
  simp [hi, h i hi]

/-- The seven frames of R54 are non-zero, and every slice that is read is zero. -/
theorem ignoredBitFrames_slices :
    ∀ r ∈ [0x00000008#32, 0x00010000#32, 0x00010008#32, 0x00020000#32, 0x00020008#32, 0x00030000#32, 0x00030008#32],
      r ≠ 0#32 ∧ r.extractLsb' 18 14 = 0#14 ∧ r.extractLsb' 4 12 = 0#12 ∧ r.extractLsb' 0 3 = 0#3 := by
  simp

/-- Settles O12: no slice that is read holds bit 17, 16 or 3. -/
theorem reservedAndAggregateBitsAreIgnored : Obligations.ReservedAndAggregateBitsAreIgnored := by
  refine ⟨fun r r' h h' hagree => ?_, fun r hr => ?_⟩
  · have htc : r.extractLsb' 18 14 = r'.extractLsb' 18 14 :=
      extractLsb'_congr fun i hi => hagree _ (by omega) (by omega) (by omega) (by omega)
    have hcj : r.extractLsb' 4 12 = r'.extractLsb' 4 12 :=
      extractLsb'_congr fun i hi => hagree _ (by omega) (by omega) (by omega) (by omega)
    have hflags : r.extractLsb' 0 3 = r'.extractLsb' 0 3 :=
      extractLsb'_congr fun i hi => hagree _ (by omega) (by omega) (by omega) (by omega)
    rw [decodeFrame_eq, decodeFrame_eq, noDevice_eq_false h, noDevice_eq_false h', htc, hcj, hflags]
    simp only [h, h', and_self]
  · obtain ⟨h, htc, hcj, hflags⟩ := ignoredBitFrames_slices r hr
    rw [decodeFrame_of_valid h hflags, htc, hcj]
    exact ⟨by simp, noDevice_eq_false h⟩

/-! ### A frame made of two field values -/

/-- The frame R58 makes of two fields, with no other bit set. -/
def frameOfFields (x : BitVec 14) (y : BitVec 12) : Frame := (x.setWidth 32 <<< 18) ||| (y.setWidth 32 <<< 4)

theorem extractLsb'_18_frameOfFields (x : BitVec 14) (y : BitVec 12) : (frameOfFields x y).extractLsb' 18 14 = x := by
  apply BitVec.eq_of_getLsbD_eq
  intro i hi
  have hy : y.getLsbD (18 + i - 4) = false := BitVec.getLsbD_of_ge _ _ (by omega)
  simp [frameOfFields, hi, hy, show 18 + i < 32 by omega]

theorem extractLsb'_4_frameOfFields (x : BitVec 14) (y : BitVec 12) : (frameOfFields x y).extractLsb' 4 12 = y := by
  apply BitVec.eq_of_getLsbD_eq
  intro i hi
  simp [frameOfFields, hi, show 4 + i < 32 by omega, show 4 + i < 18 by omega]

theorem extractLsb'_0_frameOfFields (x : BitVec 14) (y : BitVec 12) : (frameOfFields x y).extractLsb' 0 3 = 0#3 := by
  apply BitVec.eq_of_getLsbD_eq
  intro i hi
  simp [frameOfFields, show i < 18 by omega, show i < 4 by omega]

theorem frameOfFields_ne_zero {x : BitVec 14} {y : BitVec 12} (h : (x, y) ≠ (0#14, 0#12)) :
    frameOfFields x y ≠ 0#32 := by
  intro h0
  have hx : x = 0#14 := by rw [← extractLsb'_18_frameOfFields x y, h0, BitVec.extractLsb'_zero]
  have hy : y = 0#12 := by rw [← extractLsb'_4_frameOfFields x y, h0, BitVec.extractLsb'_zero]
  exact h (by rw [hx, hy])

theorem decodeFrame_frameOfFields {x : BitVec 14} {y : BitVec 12} (h : (x, y) ≠ (0#14, 0#12)) :
    decodeFrame (frameOfFields x y) = { tc := .val (x.toInt / 4), cj := .val (y.toInt / 16), flags := 0#3 } := by
  rw [decodeFrame_of_valid (frameOfFields_ne_zero h) (extractLsb'_0_frameOfFields x y),
    extractLsb'_18_frameOfFields, extractLsb'_4_frameOfFields]

/-- Settles O13: the slices of the frame are the fields put into it, and a field keeps the value it was made of. -/
theorem fieldValuesRoundTripThroughAFrame : Obligations.FieldValuesRoundTripThroughAFrame := by
  refine ⟨by decide, by decide, fun n m hn hn' hm hm' hnm => ?_⟩
  have hx : (BitVec.ofInt 14 n).toInt = n := BitVec.toInt_ofInt_eq_self (by norm_num) hn (Int.lt_add_one_of_le hn')
  have hy : (BitVec.ofInt 12 m).toInt = m := BitVec.toInt_ofInt_eq_self (by norm_num) hm (Int.lt_add_one_of_le hm')
  have hfields : (BitVec.ofInt 14 n, BitVec.ofInt 12 m) ≠ (0#14, 0#12) := by
    intro h
    obtain ⟨hx0, hy0⟩ := Prod.mk.inj h
    rw [hx0] at hx
    rw [hy0] at hy
    exact hnm (by rw [← hx, ← hy]; rfl)
  have hdecode := decodeFrame_frameOfFields hfields
  rw [hx, hy] at hdecode
  exact ⟨hdecode, noDevice_eq_false (frameOfFields_ne_zero hfields)⟩

/-! ### Valid readings -/

/-- A valid thermocouple temperature is the scaled count, whatever row of R53 it stands in. -/
theorem decodeFrame_tc_eq_val {r : Frame} {q : Rat} (h : (decodeFrame r).tc = .val q) : q = tcDegrees r := by
  rcases decodeFrame_cases r with ⟨-, -, e⟩ | ⟨-, -, e⟩ | ⟨-, -, e⟩ <;> rw [e] at h <;> cases h
  rfl

theorem decodeFrame_cj_eq_val {r : Frame} {q : Rat} (h : (decodeFrame r).cj = .val q) : q = cjDegrees r := by
  rcases decodeFrame_cases r with ⟨-, -, e⟩ | ⟨-, -, e⟩ | ⟨-, -, e⟩ <;> rw [e] at h <;> cases h <;> rfl

/-- A finite binary64 value has a word that decodes to it (R39). -/
theorem exists_word_of_isBinary64 {q : Rat} (h : isBinary64 q = true) :
    ∃ w, enc (.val q) = some w ∧ dec w = some (.val q) := by
  obtain ⟨w, hw⟩ := Option.isSome_iff_exists.mp h
  exact ⟨w, hw, dec_of_enc hw⟩

/-- An integer range, scaled. -/
theorem div_range {n lo hi : Int} {d : Rat} (hd : 0 < d) (h : lo ≤ n ∧ n ≤ hi) :
    lo / d ≤ n / d ∧ n / d ≤ hi / d := by
  obtain ⟨hlo, hhi⟩ := h
  constructor <;> gcongr

theorem tcDegrees_range (r : Frame) : -2048 ≤ tcDegrees r ∧ tcDegrees r ≤ 8191 / 4 := by
  have h := div_range (d := 4) (by norm_num) (tcCount_range r)
  rw [← tcDegrees_eq] at h
  norm_num at h
  exact h

theorem cjDegrees_range (r : Frame) : -128 ≤ cjDegrees r ∧ cjDegrees r ≤ 2047 / 16 := by
  have h := div_range (d := 16) (by norm_num) (cjCount_range r)
  rw [← cjDegrees_eq] at h
  norm_num at h
  exact h

/-- Settles O14, by the range of the counts and by a scaled count being a binary64 value. -/
theorem validReadingsAreExactAndInRange : Obligations.ValidReadingsAreExactAndInRange := by
  refine fun r => ⟨fun q h => ?_, fun q h => ?_⟩
  · obtain rfl := decodeFrame_tc_eq_val h
    obtain ⟨hlo, hhi⟩ := tcDegrees_range r
    exact ⟨hlo, hhi, ⟨tcCount r, tcDegrees_eq r⟩, exists_word_of_isBinary64 (isBinary64_tcDegrees r)⟩
  · obtain rfl := decodeFrame_cj_eq_val h
    obtain ⟨hlo, hhi⟩ := cjDegrees_range r
    exact ⟨hlo, hhi, ⟨cjCount r, cjDegrees_eq r⟩, exists_word_of_isBinary64 (isBinary64_cjDegrees r)⟩

end Sys2Proof.Machine
end

section
/-! PROOF. The linearisation engine (spec/41_linearize.md R60 to R74): the total voltage, the three polynomials and
their ranges, and what LINEARIZE answers in each. -/

namespace Sys2Proof.Machine

/-! ### The total voltage -/

theorem vtc_eq (c t : Rat) : vtc c t = (t - c) * 0.041276 := by
  rw [vtc, ratMul_eq, ratSub_eq, Rat.mkRat_eq_div]
  norm_num

theorem vcj_eq (c : Rat) : vcj c = c * 0.04073 := by
  rw [vcj, ratMul_eq, Rat.mkRat_eq_div]
  norm_num

theorem vtotal_eq (c t : Rat) : vtotal c t = (t - c) * 0.041276 + c * 0.04073 := by
  rw [vtotal, ratAdd_eq, vtc_eq, vcj_eq]

/-- The two products of R62 and R63 over one denominator. -/
theorem vtotal_eq_div (c t : Rat) : vtotal c t = (41276 * t - 546 * c) / 10 ^ 6 := by
  rw [vtotal_eq]
  ring

/-- The total voltage of counts on the 1/16 degree grid (R64). -/
theorem vtotal_grid (A B : Int) :
    vtotal ((B : Rat) / 16) ((A : Rat) / 16) = ((41276 * A - 546 * B : Int) : Rat) / (16 * 10 ^ 6) := by
  rw [vtotal_eq_div]
  push_cast
  ring

/-- A threshold that is an integer on the grid compares as that integer (R64). -/
theorem grid_lt_iff {v : Rat} {k : Int} (hv : v * (16 * 10 ^ 6) = k) (N : Int) :
    (N : Rat) / (16 * 10 ^ 6) < v ↔ N < k := by
  rw [div_lt_iff₀ (by norm_num), hv, Int.cast_lt]

/-- R59 (d): the grid values of a frame keep the integer voltage within 31 bits. -/
theorem abs_gridVoltage_le {A B : Int} (hA : -32768 ≤ A) (hA' : A ≤ 32764) (hB : -2048 ≤ B) (hB' : B ≤ 2047) :
    |41276 * A - 546 * B| ≤ 1353650176 :=
  abs_le.mpr ⟨by omega, by omega⟩

/-- Settles O16, by the voltage over one denominator and the thresholds being integers on the grid. -/
theorem totalVoltageAndItsGridForm : Obligations.TotalVoltageAndItsGridForm := by
  refine ⟨fun c t => ⟨vtc_eq c t, vcj_eq c, ratAdd_eq _ _, vtotal_eq_div c t⟩, fun A B => ?_⟩
  dsimp only
  rw [vtotal_grid]
  refine ⟨rfl, ⟨20638 * A - 273 * B, by ring⟩, grid_lt_iff (by norm_num) _, grid_lt_iff (by norm_num) _,
    grid_lt_iff (by norm_num) _, fun hA hA' hB hB' => ?_⟩
  have hN := abs_gridVoltage_le hA hA' hB hB'
  exact ⟨hN, hN.trans_lt (by norm_num)⟩

/-! ### The polynomials -/

@[simp] theorem evalPoly_nil (v : Rat) : evalPoly [] v = 0 := rfl

@[simp] theorem evalPoly_cons (d : Rat) (ds : List Rat) (v : Rat) :
    evalPoly (d :: ds) v = d + v * evalPoly ds v := by
  rw [evalPoly, ratAdd_eq, ratMul_eq]

/-- Settles O17, by induction on the coefficients. -/
theorem polynomialEvaluationIsThePowerSum : Obligations.PolynomialEvaluationIsThePowerSum := by
  intro d v
  induction d with
  | nil => simp
  | cons d ds ih =>
    have hshift : ∀ i, (d :: ds).getD (i + 1) 0 * v ^ (i + 1) = v * (ds.getD i 0 * v ^ i) := fun i => by
      rw [List.getD_cons_succ]
      ring
    rw [evalPoly_cons, ih, List.length_cons, Finset.sum_range_succ', Finset.sum_congr rfl fun i _ => hshift i,
      ← Finset.mul_sum]
    simp [add_comm]

/-- A polynomial is bounded by that of the absolute coefficients at a bound of its argument. -/
theorem abs_evalPoly_le {v B : Rat} (hv : |v| ≤ B) (d : List Rat) : |evalPoly d v| ≤ evalPoly (d.map (|·|)) B := by
  induction d with
  | nil => simp
  | cons d ds ih =>
    rw [List.map_cons, evalPoly_cons, evalPoly_cons]
    calc |d + v * evalPoly ds v| ≤ |d| + |v * evalPoly ds v| := abs_add_le _ _
      _ = |d| + |v| * |evalPoly ds v| := by rw [abs_mul]
      _ ≤ |d| + B * evalPoly (ds.map (|·|)) B := by
        gcongr
        exact (abs_nonneg v).trans hv

/-- R66. -/
theorem evalPoly_tableNeg (V : Rat) :
    evalPoly tableNeg V = 0 + 25.173462 * V - 1.1662878 * V ^ 2 - 1.0833638 * V ^ 3 - 0.8977354 * V ^ 4
      - 0.37342377 * V ^ 5 - 0.086632643 * V ^ 6 - 0.010450598 * V ^ 7 - 0.00051920577 * V ^ 8 := by
  simp only [tableNeg, evalPoly_cons, evalPoly_nil, Rat.mkRat_eq_div]
  ring

/-- R67. -/
theorem evalPoly_tableMid (V : Rat) :
    evalPoly tableMid V = 0 + 25.08355 * V + 0.07860106 * V ^ 2 - 0.2503131 * V ^ 3 + 0.0831527 * V ^ 4
      - 0.01228034 * V ^ 5 + 0.0009804036 * V ^ 6 - 0.00004413030 * V ^ 7 + 0.000001057734 * V ^ 8
      - 0.00000001052755 * V ^ 9 := by
  simp only [tableMid, evalPoly_cons, evalPoly_nil, Rat.mkRat_eq_div]
  ring

/-- R68. -/
theorem evalPoly_tableHi (V : Rat) :
    evalPoly tableHi V = -131.8058 + 48.30222 * V - 1.646031 * V ^ 2 + 0.05464731 * V ^ 3 - 0.0009650715 * V ^ 4
      + 0.000008802193 * V ^ 5 - 0.00000003110810 * V ^ 6 := by
  simp only [tableHi, evalPoly_cons, evalPoly_nil, Rat.mkRat_eq_div]
  ring

/-- Up to 64 millivolts a polynomial with small coefficients stays below the magnitude R73 refuses. -/
theorem abs_evalPoly_lt_two_pow_1024 {d : List Rat} {v : Rat} (hv : |v| ≤ 64)
    (hd : evalPoly (d.map (|·|)) 64 < 2 ^ 32) : |evalPoly d v| < (2 : Rat) ^ (1024 : Nat) :=
  calc |evalPoly d v| ≤ evalPoly (d.map (|·|)) 64 := abs_evalPoly_le hv d
    _ < 2 ^ 32 := hd
    _ ≤ 2 ^ 1024 := pow_le_pow_right₀ (by norm_num) (by norm_num)

theorem abs_evalPoly_tableMid_lt {v : Rat} (hv : |v| ≤ 64) : |evalPoly tableMid v| < (2 : Rat) ^ (1024 : Nat) := by
  refine abs_evalPoly_lt_two_pow_1024 hv ?_
  norm_num [tableMid, Rat.mkRat_eq_div, abs_div]

theorem abs_evalPoly_tableHi_lt {v : Rat} (hv : |v| ≤ 64) : |evalPoly tableHi v| < (2 : Rat) ^ (1024 : Nat) := by
  refine abs_evalPoly_lt_two_pow_1024 hv ?_
  norm_num [tableHi, Rat.mkRat_eq_div, abs_div]

/-! ### The exact result in each range -/

theorem corrected_of_neg {v : Rat} (h : v < 0) : corrected v = some (evalPoly tableNeg v) := by
  rcases selectTable_cases v with ⟨-, e⟩ | ⟨h0, -, -⟩ | ⟨h0, -, -⟩ | ⟨h0, -⟩
  · rw [corrected, e, Option.map_some]
  · linarith
  · linarith
  · linarith

theorem corrected_of_mid {v : Rat} (h : 0 ≤ v) (h' : v < 20.644) : corrected v = some (evalPoly tableMid v) := by
  rcases selectTable_cases v with ⟨h0, -⟩ | ⟨-, -, e⟩ | ⟨h0, -, -⟩ | ⟨h0, -⟩
  · linarith
  · rw [corrected, e, Option.map_some]
  · linarith
  · linarith

theorem corrected_of_high {v : Rat} (h : 20.644 ≤ v) (h' : v < 54.886) : corrected v = some (evalPoly tableHi v) := by
  rcases selectTable_cases v with ⟨h0, -⟩ | ⟨-, h0, -⟩ | ⟨-, -, e⟩ | ⟨h0, -⟩
  · linarith
  · linarith
  · rw [corrected, e, Option.map_some]
  · linarith

/-- A voltage is out of range exactly where no table is selected (R70). -/
theorem selectTable_eq_none_iff (v : Rat) : selectTable v = none ↔ 54.886 ≤ v := by
  rcases selectTable_cases v with ⟨h, e⟩ | ⟨-, h, e⟩ | ⟨-, h, e⟩ | ⟨h, e⟩ <;> rw [e]
  · exact iff_of_false (Option.some_ne_none _) (by linarith)
  · exact iff_of_false (Option.some_ne_none _) (by linarith)
  · exact iff_of_false (Option.some_ne_none _) (by linarith)
  · exact iff_of_true rfl (by linarith)

theorem corrected_eq_none_iff (v : Rat) : corrected v = none ↔ 54.886 ≤ v := by
  rw [corrected, Option.map_eq_none_iff, selectTable_eq_none_iff]

/-! ### LINEARIZE on two temperatures -/

theorem linearizeTemp_of_fault (R : Rat → Rat) {cj tc : Temp} (h : cj = .fault ∨ tc = .fault) :
    linearizeTemp R cj tc = some .fault := by
  rcases h with rfl | rfl
  · rfl
  · cases cj <;> rfl

/-- A voltage out of range gives `Fault` (R70). -/
theorem linearizeTemp_of_outOfRange (R : Rat → Rat) {c t : Rat} (h : 54.886 ≤ vtotal c t) :
    linearizeTemp R (.val c) (.val t) = some .fault := by
  rw [linearizeTemp_vals, (corrected_eq_none_iff _).mpr h, Option.elim_none]

/-- An exact result at or beyond `2^1024` is not admitted (R73). -/
theorem linearizeTemp_eq_none_of_corrected (R : Rat → Rat) {c t T : Rat} (hT : corrected (vtotal c t) = some T)
    (hge : (2 : Rat) ^ (1024 : Nat) ≤ |T|) : linearizeTemp R (.val c) (.val t) = none := by
  rw [linearizeTemp_vals, hT, Option.elim_some, if_pos ((atLeast2Pow1024_iff T).mpr hge)]

/-- LINEARIZE responds with the temperature its operands give. -/
theorem exec_linearize_of_some {a b : Word64} {cj tc t : Temp} (ha : dec a = some cj) (hb : dec b = some tc)
    (h : linearizeTemp rnd cj tc = some t) (s : State) :
    exec (.linearize a b) s = .next { s with phase := .idle, rsp := some (.temp t) } :=
  (execLinearize_of_dec ha hb s).1 t h

theorem exec_linearize_of_none {a b : Word64} {cj tc : Temp} (ha : dec a = some cj) (hb : dec b = some tc)
    (h : linearizeTemp rnd cj tc = none) (s : State) :
    exec (.linearize a b) s = .refused .resultBeyondBinary64 :=
  (execLinearize_of_dec ha hb s).2 h

/-- An exact result below `2^1024` is answered, rounded (R60, R71). -/
theorem exec_linearize_of_corrected {a b : Word64} {c t T : Rat} (ha : dec a = some (.val c))
    (hb : dec b = some (.val t)) (hT : corrected (vtotal c t) = some T) (hlt : |T| < (2 : Rat) ^ (1024 : Nat))
    (s : State) : exec (.linearize a b) s = .next { s with phase := .idle, rsp := some (.temp (.val (rnd T))) } :=
  exec_linearize_of_some ha hb (linearizeTemp_of_corrected rnd hT hlt) s

/-- Settles O18: below 0 the NEG table is selected, and the size of the exact result decides. -/
theorem linearizeBelowZeroUsesTheNegTable : Obligations.LinearizeBelowZeroUsesTheNegTable := by
  intro a b c t s ha hb
  dsimp only
  rw [← vtotal_eq, ← evalPoly_tableNeg]
  intro hneg
  have hT := corrected_of_neg hneg
  exact ⟨fun hlt => exec_linearize_of_corrected ha hb hT hlt s,
    fun hge => exec_linearize_of_none ha hb (linearizeTemp_eq_none_of_corrected rnd hT hge) s⟩

/-- Settles O19: from 0 to 20.644 the MID table is selected, and its polynomial stays far below `2^1024`. -/
theorem linearizeMidRangeUsesTheMidTable : Obligations.LinearizeMidRangeUsesTheMidTable := by
  intro a b c t s ha hb
  dsimp only
  rw [← vtotal_eq, ← evalPoly_tableMid]
  intro hlo hhi
  have hV : |vtotal c t| ≤ 64 := by
    rw [abs_of_nonneg hlo]
    linarith
  exact exec_linearize_of_corrected ha hb (corrected_of_mid hlo hhi) (abs_evalPoly_tableMid_lt hV) s

/-- Settles O20: from 20.644 to 54.886 the HI table is selected, and its polynomial stays far below `2^1024`. -/
theorem linearizeHighRangeUsesTheHiTable : Obligations.LinearizeHighRangeUsesTheHiTable := by
  intro a b c t s ha hb
  dsimp only
  rw [← vtotal_eq, ← evalPoly_tableHi]
  intro hlo hhi
  have hV : |vtotal c t| ≤ 64 := by
    rw [abs_of_nonneg (by linarith)]
    linarith
  exact exec_linearize_of_corrected ha hb (corrected_of_high hlo hhi) (abs_evalPoly_tableHi_lt hV) s

/-! ### `Fault` and its report -/

/-- With a `Fault` operand no condition is reported (R61). -/
theorem rangeConditions_of_fault {a b : Word64} {cj tc : Temp} (ha : dec a = some cj) (hb : dec b = some tc)
    (h : cj = .fault ∨ tc = .fault) : rangeConditions a b = [] := by
  unfold rangeConditions
  rw [ha, hb]
  rcases h with rfl | rfl
  · rfl
  · cases cj <;> rfl

theorem rangeConditions_of_outOfRange {a b : Word64} {c t : Rat} (ha : dec a = some (.val c))
    (hb : dec b = some (.val t)) (h : 54.886 ≤ vtotal c t) : rangeConditions a b = [.outOfRange] := by
  simp [rangeConditions, ha, hb, (selectTable_eq_none_iff _).mpr h]

/-- Settles O15: the test for `Fault` comes before the voltage. -/
theorem linearizePassesAFaultThrough : Obligations.LinearizePassesAFaultThrough := by
  intro a b s h
  obtain ⟨cj, tc, ha, hb, hfault⟩ :
      ∃ cj tc, dec a = some cj ∧ dec b = some tc ∧ (cj = .fault ∨ tc = .fault) := by
    rcases h with ⟨ha, hb⟩ | ⟨ha, hb⟩
    · obtain ⟨tc, hb⟩ := Option.ne_none_iff_exists'.mp hb
      exact ⟨.fault, tc, ha, hb, .inl rfl⟩
    · obtain ⟨cj, ha⟩ := Option.ne_none_iff_exists'.mp ha
      exact ⟨cj, .fault, ha, hb, .inr rfl⟩
  exact ⟨exec_linearize_of_some ha hb (linearizeTemp_of_fault rnd hfault) s,
    fun _ => rangeConditions_of_fault ha hb hfault⟩

/-- With the cold junction at 0, the quarter degrees out of range (R70). -/
theorem outOfRange_quarterDegree_iff (n : Int) : 54.886 ≤ vtotal 0 ((n : Rat) / 4) ↔ 5319 ≤ n := by
  have hscaled : (54.886 : Rat) ≤ vtotal 0 ((n : Rat) / 4) ↔ ((219544000 : Int) : Rat) ≤ ((41276 * n : Int) : Rat) := by
    rw [vtotal_eq_div]
    push_cast
    constructor <;> intro h <;> linarith
  rw [hscaled, Int.cast_le]
  omega

/-- Settles O21, by where no table is selected. -/
theorem linearizeAboveTheTablesAnswersFault : Obligations.LinearizeAboveTheTablesAnswersFault := by
  refine ⟨fun a b c t s ha hb h => ?_, fun n => ?_⟩
  · rw [← vtotal_eq] at h
    exact ⟨exec_linearize_of_some ha hb (linearizeTemp_of_outOfRange rnd h) s,
      fun _ => rangeConditions_of_outOfRange ha hb h⟩
  · have hquarter : (1329.75 : Rat) = ((5319 : Int) : Rat) / 4 := by norm_num
    rw [corrected_eq_none_iff, outOfRange_quarterDegree_iff, hquarter, div_le_div_iff_of_pos_right (by norm_num),
      Int.cast_le]

/-! ### Infinite operands, and the dependence on the voltage alone -/

/-- LINEARIZE names an infinite operand exactly when an operand word has no temperature (R73). -/
theorem exec_linearize_eq_infiniteOperand_iff (a b : Word64) (s : State) :
    exec (.linearize a b) s = .refused .infiniteOperand ↔ dec a = none ∨ dec b = none := by
  refine ⟨fun h => ?_, fun h => execLinearize_of_infinity h s⟩
  by_contra hfinite
  obtain ⟨ha, hb⟩ := not_or.mp hfinite
  obtain ⟨cj, ha⟩ := Option.ne_none_iff_exists'.mp ha
  obtain ⟨tc, hb⟩ := Option.ne_none_iff_exists'.mp hb
  cases hl : linearizeTemp rnd cj tc with
  | none =>
    rw [exec_linearize_of_none ha hb hl] at h
    cases h
  | some t =>
    rw [exec_linearize_of_some ha hb hl] at h
    cases h

theorem dec_eq_none_iff_mem (w : Word64) :
    dec w = none ↔ w ∈ [0x7FF0000000000000#64, 0xFFF0000000000000#64] := by
  rw [operandWordsDecodeAsBinary64.2 w, List.mem_pair]

/-- Settles O22, by the two words without a temperature. -/
theorem linearizeRefusesInfiniteOperands : Obligations.LinearizeRefusesInfiniteOperands := by
  intro a b s
  rw [← dec_eq_none_iff_mem, ← dec_eq_none_iff_mem, exec_linearize_eq_infiniteOperand_iff]

/-- LINEARIZE sees its operands only through the temperature they give. -/
theorem exec_linearize_congr {a b a' b' : Word64} {cj tc cj' tc' : Temp} (ha : dec a = some cj)
    (hb : dec b = some tc) (ha' : dec a' = some cj') (hb' : dec b' = some tc')
    (h : linearizeTemp rnd cj tc = linearizeTemp rnd cj' tc') (s : State) :
    exec (.linearize a b) s = exec (.linearize a' b') s := by
  cases hl : linearizeTemp rnd cj tc with
  | none => rw [exec_linearize_of_none ha hb hl, exec_linearize_of_none ha' hb' (h ▸ hl)]
  | some t => rw [exec_linearize_of_some ha hb hl, exec_linearize_of_some ha' hb' (h ▸ hl)]

theorem linearizeTemp_congr_vtotal (R : Rat → Rat) {c t c' t' : Rat} (h : vtotal c t = vtotal c' t') :
    linearizeTemp R (.val c) (.val t) = linearizeTemp R (.val c') (.val t') := by
  rw [linearizeTemp_vals, linearizeTemp_vals, h]

/-- Settles O23: the temperatures enter through the voltage, and each step of the engine keeps 0. -/
theorem linearizeDependsOnTheVoltageOnly : Obligations.LinearizeDependsOnTheVoltageOnly := by
  refine ⟨fun a b a' b' c t c' t' s ha hb ha' hb' hV => ?_, fun s => ?_⟩
  · rw [← vtotal_eq_div, ← vtotal_eq_div] at hV
    exact exec_linearize_congr ha hb ha' hb' (linearizeTemp_congr_vtotal rnd hV) s
  · have hdec : dec 0#64 = some (.val 0) := rfl
    have hzero : corrected (vtotal 0 0) = some 0 := by
      rw [vtotal_eq_div, corrected_of_mid (by norm_num) (by norm_num)]
      simp [tableMid]
    have h := exec_linearize_of_corrected hdec hdec hzero (by norm_num) s
    rwa [conforming_rnd.1] at h

end Sys2Proof.Machine
end

section
/-! PROOF. Conversion to Fahrenheit (spec/42_convert.md R75 to R77): the conversion in the spec's exact forms, for any
result rounding. -/

namespace Sys2Proof.Machine

@[simp] theorem ctoF_fault (R : Rat → Rat) : ctoF R .fault = .fault := rfl

/-- The formula as the source writes it, rounded once (R77). -/
theorem ctoF_val (R : Rat → Rat) (c : Rat) : ctoF R (.val c) = .val (R (c * 9 / 5 + 32)) := by
  rw [ctoF, fahrenheit_eq, mul_div_assoc]

/-- The formula as one fraction, rounded once (R77). -/
theorem ctoF_val_fraction (R : Rat → Rat) (c : Rat) : ctoF R (.val c) = .val (R ((9 * c + 160) / 5)) := by
  have hexact : c * 9 / 5 + 32 = (9 * c + 160) / 5 := by ring
  rw [ctoF_val, hexact]

/-- On the grid of the decoded thermocouple readings (R55) the quarter degree goes into the denominator (R77). -/
theorem ctoF_quarterDegree (R : Rat → Rat) (n : Int) :
    ctoF R (.val ((n : Rat) / 4)) = .val (R ((9 * n + 640) / 20)) := by
  have hexact : (9 * ((n : Rat) / 4) + 160) / 5 = (9 * n + 640) / 20 := by ring
  rw [ctoF_val_fraction, hexact]

/-- Settles O27, clause by clause: the fault, the exact formula in its two forms, the quarter-degree grid. -/
theorem fahrenheitIsOneRoundingOfTheExactValue : Obligations.FahrenheitIsOneRoundingOfTheExactValue :=
  fun R => ⟨ctoF_fault R, fun c => ⟨ctoF_val R c, ctoF_val_fraction R c⟩, ctoF_quarterDegree R⟩

end Sys2Proof.Machine
end

section
/-! PROOF. The five read operations (spec/43_read_ops.md R80 to R87): the request, the wait and the answer are moves of
the one template; the item each returns is the reading of R53's table, over the slices of the frame. -/

namespace Sys2Proof.Machine

/-! ### The moves of the template -/

theorem fetch_of_answered {s : State} {r : Frame} {k : List FetchAnswer} (ha : s.acquirer = .answer 0 r :: k) :
    fetch s = (some r, { s with acquirer := k }) := by
  simp [fetch, ha]

theorem fetch_of_delayed {s : State} {d : Nat} {r : Frame} {k : List FetchAnswer}
    (ha : s.acquirer = .answer (d + 1) r :: k) : fetch s = (none, { s with acquirer := .answer d r :: k }) := by
  simp [fetch, ha]

theorem fetch_of_silent {s : State} (ha : s.acquirer = [] ∨ ∃ k, s.acquirer = .never :: k) :
    fetch s = (none, s) := by
  rcases ha with ha | ⟨k, ha⟩ <;> simp [fetch, ha]

/-- Outside its own `WaitFetch` a read operation requests (R80; log entry 17). -/
theorem exec_readOp_of_not_waiting {op : ReadOp} {s : State} (hp : s.phase ≠ .waitFetch op) :
    exec op.instr s = .next (requestFrame op s) := by
  rw [exec_readOp, readOperation, if_neg hp]

/-- No frame in this step: the operation goes on waiting (R29). -/
theorem exec_readOp_of_fetch_none {op : ReadOp} {s t : State} (hp : s.phase = .waitFetch op)
    (hf : fetch s = (none, t)) : exec op.instr s = .next (quiet t) := by
  rw [exec_readOp, readOperation, if_pos hp, hf]

/-- The frame comes in this step: the operation completes with its item (R17). -/
theorem exec_readOp_of_answered {op : ReadOp} {s : State} {r : Frame} {k : List FetchAnswer}
    (hp : s.phase = .waitFetch op) (ha : s.acquirer = .answer 0 r :: k) :
    exec op.instr s = .next (respond (readResponse op r) { s with acquirer := k }) := by
  rw [exec_readOp, readOperation, if_pos hp, fetch_of_answered ha]

/-- Settles O28, by what the frame channel does while the fetch is pending. -/
theorem readOperationsRequestOnceAndWait : Obligations.ReadOperationsRequestOnceAndWait := by
  refine fun op s => ⟨exec_readOp_of_not_waiting, fun d r k hp ha => ?_, fun hp ha => ?_⟩
  · exact exec_readOp_of_fetch_none hp (fetch_of_delayed ha)
  · exact exec_readOp_of_fetch_none hp (fetch_of_silent ha)

/-! ### The items, over the slices of the frame -/

theorem rdtcResponse_eq (r : Frame) :
    rdtcResponse r = .temp (if r = 0#32 ∨ r.extractLsb' 0 3 ≠ 0#3 then .fault
      else .val ((r.extractLsb' 18 14).toInt / 4)) := by
  rw [rdtcResponse, decodeFrame_eq]

theorem rdcjResponse_eq (r : Frame) :
    rdcjResponse r = .temp (if r = 0#32 then .fault else .val ((r.extractLsb' 4 12).toInt / 16)) := by
  rw [rdcjResponse, decodeFrame_eq]

/-- The conversion passes `Fault` through and rounds a quarter-degree count once (R76, R77). -/
theorem rdfResponse_eq (r : Frame) :
    rdfResponse r = .temp (if r = 0#32 ∨ r.extractLsb' 0 3 ≠ 0#3 then .fault
      else .val (rnd ((9 * (r.extractLsb' 18 14).toInt + 640) / 20))) := by
  rw [rdfResponse, decodeFrame_eq, apply_ite (ctoF rnd), ctoF_fault, ctoF_quarterDegree]

theorem rdfltResponse_eq (r : Frame) : rdfltResponse r = .flags (r.extractLsb' 0 3) := by
  rw [rdfltResponse, faultBits_eq]

theorem rawFault_iff (r : Frame) : rawFault r = true ↔ r.extractLsb' 0 3 ≠ 0#3 := by
  rw [rawFault, bne_iff_ne, faultBits_eq]

theorem rdrawResponse_eq (r : Frame) :
    rdrawResponse r = .word (if r.extractLsb' 0 3 ≠ 0#3 then 0#32 else r) := by
  simp only [rdrawResponse, rawFault_iff]

/-! ### The answers -/

/-- Settles O29: the item is DECODE's thermocouple temperature. -/
theorem rdtcAnswersTheThermocoupleTemperature : Obligations.RdtcAnswersTheThermocoupleTemperature := by
  intro s r k hp ha
  rw [← rdtcResponse_eq]
  exact exec_readOp_of_answered hp ha

/-- Settles O30: the item is DECODE's cold-junction temperature. -/
theorem rdcjAnswersTheColdJunctionTemperature : Obligations.RdcjAnswersTheColdJunctionTemperature := by
  intro s r k hp ha
  rw [← rdcjResponse_eq]
  exact exec_readOp_of_answered hp ha

/-- Settles O31: the item is DECODE's thermocouple temperature, converted. -/
theorem rdfAnswersTheTemperatureInFahrenheit : Obligations.RdfAnswersTheTemperatureInFahrenheit := by
  intro s r k hp ha
  rw [← rdfResponse_eq]
  exact exec_readOp_of_answered hp ha

/-- Settles O32: the item is the three fault bits. -/
theorem rdfltAnswersTheFaultBits : Obligations.RdfltAnswersTheFaultBits := by
  intro s r k hp ha
  rw [← rdfltResponse_eq]
  exact exec_readOp_of_answered hp ha

/-- Settles O33: the item is the masked frame, and its port word is that frame zero-extended. -/
theorem rdrawAnswersTheFrameOrZero : Obligations.RdrawAnswersTheFrameOrZero := by
  intro s r k hp ha
  rw [← rdrawResponse_eq, ← faultBits_eq]
  exact ⟨_, exec_readOp_of_answered (op := .rdraw) hp ha, rfl, rdrawResponse_x r⟩

/-! ### Agreement with DECODE -/

/-- Masking makes a frame all-zero exactly when its thermocouple reading is not valid (R87, R108). -/
theorem maskedFrame_eq_zero_iff (r : Frame) :
    (if r.extractLsb' 0 3 ≠ 0#3 then 0#32 else r) = 0#32 ↔ r = 0#32 ∨ r.extractLsb' 0 3 ≠ 0#3 := by
  by_cases hset : r.extractLsb' 0 3 ≠ 0#3
  · rw [if_pos hset]
    exact iff_of_true rfl (.inr hset)
  · rw [if_neg hset, or_iff_left hset]

theorem decodeFrame_zero : decodeFrame 0#32 = { tc := .fault, cj := .fault, flags := 0#3 } := rfl

/-- Settles O34: RDRAW's word is 0 exactly for the frames whose thermocouple temperature is `Fault`. -/
theorem readOperationsAgreeWithDecode : Obligations.ReadOperationsAgreeWithDecode := by
  intro r
  rw [decodeFrame_flags]
  refine ⟨rfl, rfl, rfl, rdfltResponse_eq r, rdrawResponse_eq r, fun w hw => ?_⟩
  obtain rfl := Response.word.inj ((rdrawResponse_eq r).symm.trans hw)
  have hnodev := (noDevice_iff _).trans (maskedFrame_eq_zero_iff r)
  refine ⟨hnodev, hnodev.trans (decodeFrame_tc_eq_fault_iff r).symm, fun hset => ?_⟩
  rw [if_pos hset, decodeFrame_zero]

end Sys2Proof.Machine
end

section
/-! PROOF. The conditions of the taxonomy and the refusals (spec/60_exceptions.md R90, R91, R94): which reports a
`Fault` stands for, and that the admitted operations are those executed. -/

namespace Sys2Proof.Machine

/-! ### Refusals -/

/-- Settles O46: neither the answer of an admitted operation nor the refusal of another depends on the phase. -/
theorem admittedOperationsExecuteAndOthersAreRefused : Obligations.AdmittedOperationsExecuteAndOthersAreRefused := by
  refine fun i s => ⟨fun h => exec_next_of_wellFormed h s, fun h => ?_⟩
  obtain ⟨ρ, hρ⟩ := exec_refused_of_not_wellFormed h
  exact ⟨ρ, hρ s⟩

/-! ### The conditions of a frame -/

theorem flags_eq_zero_iff (r : Frame) : r.extractLsb' 0 3 = 0#3 ↔ ∀ k < 3, r.getLsbD k = false := by
  constructor
  · intro h k hk
    have hbit := congrArg (BitVec.getLsbD · k) h
    simpa [hk] using hbit
  · intro h
    apply BitVec.eq_of_getLsbD_eq
    intro k hk
    simpa [hk] using h k hk

/-- The sensor conditions are the bits of `rsp_flags` (R41, R90). -/
theorem sensorConditions_eq_nil_iff (r : Frame) : sensorConditions r = [] ↔ r.extractLsb' 0 3 = 0#3 := by
  have hbits : (∀ k < 3, r.getLsbD k = false) ↔
      r.getLsbD 0 = false ∧ r.getLsbD 1 = false ∧ r.getLsbD 2 = false := by
    simp only [Nat.forall_lt_succ_left, Nat.not_lt_zero, false_imp_iff, implies_true, and_true]
  rw [flags_eq_zero_iff, hbits]
  simp [sensorConditions]

theorem absenceConditions_of_ne_zero {r : Frame} (h : r ≠ 0#32) : absenceConditions r = [] := by
  rw [absenceConditions, noDevice_eq_false h]
  rfl

/-- No thermocouple temperature exactly where a sensor condition or NO_DEVICE holds (R90). -/
theorem decodeFrame_tc_eq_fault_iff_conditions (r : Frame) :
    (decodeFrame r).tc = .fault ↔ sensorConditions r ++ absenceConditions r ≠ [] := by
  rw [decodeFrame_tc_eq_fault_iff]
  by_cases h : r = 0#32
  · subst h
    exact iff_of_true (.inl rfl) (List.cons_ne_nil _ _)
  · rw [or_iff_right h, absenceConditions_of_ne_zero h, List.append_nil, ne_eq, ← sensorConditions_eq_nil_iff]

/-- No cold-junction temperature exactly where NO_DEVICE holds (R90). -/
theorem decodeFrame_cj_eq_fault_iff_conditions (r : Frame) :
    (decodeFrame r).cj = .fault ↔ absenceConditions r = [.noDevice] := by
  rw [decodeFrame_cj_eq_fault_iff]
  by_cases h : r = 0#32
  · subst h
    exact iff_of_true rfl rfl
  · rw [absenceConditions_of_ne_zero h]
    exact iff_of_false h nofun

/-- NO_DEVICE excludes the sensor conditions: the all-zero frame has no flag (R90). -/
theorem conditions_of_noDevice {r : Frame} (h : .noDevice ∈ sensorConditions r ++ absenceConditions r) :
    sensorConditions r ++ absenceConditions r = [.noDevice] := by
  obtain rfl := (mem_reported_decode_iff .noDevice r r).mp h
  rfl

theorem ctoF_eq_fault_iff (R : Rat → Rat) (T : Temp) : ctoF R T = .fault ↔ T = .fault := by
  cases T with
  | fault => exact iff_of_true rfl rfl
  | val c => exact iff_of_false nofun nofun

/-! ### OUT_OF_RANGE -/

/-- Both operand words are valid temperatures, and their total voltage is beyond the tables (R70). -/
def BeyondTables (a b : Word64) : Prop :=
  ∃ c t, dec a = some (.val c) ∧ dec b = some (.val t) ∧ 54.886 ≤ vtotal c t

theorem beyondTables_iff {a b : Word64} {c t : Rat} (ha : dec a = some (.val c)) (hb : dec b = some (.val t)) :
    BeyondTables a b ↔ 54.886 ≤ vtotal c t := by
  constructor
  · rintro ⟨c', t', ha', hb', hv⟩
    cases ha.symm.trans ha'
    cases hb.symm.trans hb'
    exact hv
  · exact fun hv => ⟨c, t, ha, hb, hv⟩

/-- LINEARIZE reports OUT_OF_RANGE or nothing (R90). -/
theorem rangeConditions_cases (a b : Word64) :
    (BeyondTables a b ∧ rangeConditions a b = [.outOfRange]) ∨ (¬ BeyondTables a b ∧ rangeConditions a b = []) := by
  by_cases h : BeyondTables a b
  · obtain ⟨c, t, ha, hb, hv⟩ := id h
    exact .inl ⟨h, rangeConditions_of_outOfRange ha hb hv⟩
  · refine .inr ⟨h, ?_⟩
    unfold rangeConditions
    split
    case h_1 c t ha hb =>
      rw [beyondTables_iff ha hb, ← selectTable_eq_none_iff, ← Option.isNone_iff_eq_none] at h
      rw [if_neg h]
    case h_2 => rfl

theorem rangeConditions_eq_outOfRange_iff (a b : Word64) : rangeConditions a b = [.outOfRange] ↔ BeyondTables a b := by
  rcases rangeConditions_cases a b with ⟨h, e⟩ | ⟨h, e⟩ <;> simp [h, e]

theorem outOfRange_mem_rangeConditions_iff (a b : Word64) : .outOfRange ∈ rangeConditions a b ↔ BeyondTables a b := by
  rcases rangeConditions_cases a b with ⟨h, e⟩ | ⟨h, e⟩ <;> simp [h, e]

/-- The conditions of a frame never include OUT_OF_RANGE (R90). -/
theorem outOfRange_notMem_conditions (r : Frame) : .outOfRange ∉ sensorConditions r ++ absenceConditions r :=
  (mem_reported_decode_iff .outOfRange r r).mp

/-- OUT_OF_RANGE comes from LINEARIZE alone (R90). -/
theorem outOfRange_mem_reported_iff (i : Instr) (r : Frame) :
    .outOfRange ∈ reported i r ↔ ∃ a b, i = .linearize a b ∧ BeyondTables a b := by
  cases i with
  | linearize a b => simp [reported, outOfRange_mem_rangeConditions_iff]
  | decode q => exact iff_of_false (outOfRange_notMem_conditions q) nofun
  | rdtc => exact iff_of_false (outOfRange_notMem_conditions r) nofun
  | rdf => exact iff_of_false (outOfRange_notMem_conditions r) nofun
  | rdcj => exact iff_of_false (fun h => outOfRange_notMem_conditions r (List.mem_append_right _ h)) nofun
  | rdflt => exact iff_of_false (fun h => outOfRange_notMem_conditions r (List.mem_append_left _ h)) nofun
  | rdraw => exact iff_of_false nofun nofun
  | reserved => exact iff_of_false nofun nofun

/-! ### What a `Fault` of LINEARIZE stands for -/

/-- LINEARIZE answers `Fault` for a `Fault` operand or beyond the tables, and nowhere else (R61, R70). -/
theorem linearizeTemp_eq_fault_iff (R : Rat → Rat) {a b : Word64} {cj tc : Temp} (ha : dec a = some cj)
    (hb : dec b = some tc) :
    linearizeTemp R cj tc = some .fault ↔ (cj = .fault ∨ tc = .fault) ∨ BeyondTables a b := by
  rcases linearizeTemp_cases R cj tc with ⟨h, e⟩ | ⟨c, t, rfl, rfl, hvals⟩
  · exact iff_of_true e (.inl h)
  · have hvalid : ¬ (Temp.val c = .fault ∨ Temp.val t = .fault) := nofun
    rw [or_iff_right hvalid, beyondTables_iff ha hb, ← corrected_eq_none_iff]
    rcases hvals with ⟨hn, e⟩ | ⟨q, hq, ⟨-, e⟩ | ⟨-, e⟩⟩ <;> rw [e]
    · exact iff_of_true rfl hn
    · exact iff_of_false nofun (hq ▸ Option.some_ne_none q)
    · exact iff_of_false nofun (hq ▸ Option.some_ne_none q)

/-- Settles O35: a frame's `Fault` by its flags and the all-zero test, LINEARIZE's by its operands and the voltage. -/
theorem reportedConditionsExplainEveryFault : Obligations.ReportedConditionsExplainEveryFault := by
  refine ⟨fun r => ?_, fun i r => ?_, fun a b r s t h => ?_⟩
  · have htc := decodeFrame_tc_eq_fault_iff_conditions r
    refine ⟨htc, htc, (ctoF_eq_fault_iff rnd _).trans htc, decodeFrame_cj_eq_fault_iff_conditions r, ?_,
      conditions_of_noDevice⟩
    rw [faultBits_eq]
    exact (sensorConditions_eq_nil_iff r).not.symm
  · rw [outOfRange_mem_reported_iff]
    simp only [BeyondTables, vtotal_eq_div, exists_and_left]
  · obtain ⟨x, hx, rfl⟩ := next_of_not_fetches rfl h
    obtain ⟨cj, tc, T, ha, hb, hT, rfl⟩ := responseOf_linearize hx
    have hfault := linearizeTemp_eq_fault_iff rnd ha hb
    rw [hT] at hfault
    simp only [respond_rsp, ha, hb, Option.some.injEq, Response.temp.injEq]
    refine ⟨?_, rangeConditions_of_fault ha hb⟩
    rw [← or_assoc, reported, rangeConditions_eq_outOfRange_iff, ← hfault, Option.some.injEq]

end Sys2Proof.Machine
end

section
/-! PROOF. Reset and hazards (spec/70_reset_and_hazards.md R105, R116, R117): what a reset abandons, that the host's
moves do not depend on TCFD, and that a run without reset delivers exactly the responses owed. -/

namespace Sys2Proof.Machine

/-! ### Responses owed

The simulation behind R117: in every phase the machine owes the responses of the operation in flight and of the
commands still to come, and each step without reset delivers the first of them or delivers nothing and owes the same.
A measure of the remaining steps shows that all of them are delivered. -/

/-- The operation in flight (R17). -/
def Phase.inFlight : Phase → List Instr
  | .idle => []
  | .busy o => [o.instr]
  | .waitFetch op => [op.instr]

/-- The operations not yet answered: the one in flight, then those of the commands still presented. -/
def State.pending (s : State) : List Instr := s.phase.inFlight ++ operationsOf s.host

/-- The requests still to be made or answered. -/
def State.fetchesLeft (s : State) : Nat := s.pending.countP fetches

/-- No reset comes; `s` still owes the responses `xs`, and answering them leaves the frames `fs` unused. -/
structure State.Owes (s : State) (xs : List Response) (fs : List Frame) : Prop where
  noReset : ∀ b ∈ s.rst, b = false
  responses : responsesTo s.pending (framesOf s.acquirer) = some xs
  unused : (framesOf s.acquirer).drop s.fetchesLeft = fs

theorem State.pending_eq {s : State} {p : Phase} {h : List Presentation} (hp : s.phase = p) (hh : s.host = h) :
    s.pending = p.inFlight ++ operationsOf h := by
  rw [State.pending, hp, hh]

/-- With nothing pending the machine is `Idle` and every command is served. -/
theorem State.pending_eq_nil_iff {s : State} : s.pending = [] ↔ s.phase = .idle ∧ s.host = [] := by
  unfold State.pending operationsOf
  cases s.phase <;> simp [Phase.inFlight]

/-! ### What a command list owes -/

theorem responsesTo_cons_of_not_fetches {i : Instr} {is : List Instr} {fs : List Frame} {xs : List Response}
    (hf : fetches i = false) (h : responsesTo (i :: is) fs = some xs) :
    ∃ x ys, responseOf i 0#32 = some x ∧ responsesTo is fs = some ys ∧ xs = x :: ys := by
  simp only [responsesTo, hf, Bool.false_eq_true, if_false, Option.bind_eq_some_iff, Option.map_eq_some_iff] at h
  obtain ⟨x, hx, ys, hys, rfl⟩ := h
  exact ⟨x, ys, hx, hys, rfl⟩

theorem responsesTo_cons_of_readOp {op : ReadOp} {is : List Instr} {fs : List Frame} {xs : List Response}
    (h : responsesTo (op.instr :: is) fs = some xs) :
    ∃ r rest ys, fs = r :: rest ∧ responsesTo is rest = some ys ∧ xs = readResponse op r :: ys := by
  cases fs with
  | nil => simp [responsesTo] at h
  | cons r rest =>
    simp only [responsesTo, fetches_readOp, if_true, responseOf_readOp, Option.bind_some,
      Option.map_eq_some_iff] at h
    obtain ⟨ys, hys, rfl⟩ := h
    exact ⟨r, rest, ys, rfl, hys, rfl⟩

/-- A command that owes a response is admitted (R91). -/
theorem wellFormed_of_responseOf {i : Instr} {r : Frame} {x : Response} (hf : fetches i = false)
    (h : responseOf i r = some x) : i.wellFormed = true := by
  by_contra hw
  obtain ⟨ρ, hρ⟩ := exec_refused_of_not_wellFormed (eq_false_of_ne_true hw)
  rcases exec_of_not_fetches hf State.reset r with ⟨y, -, e⟩ | ⟨hn, -⟩
  · exact nomatch (hρ _).symm.trans e
  · exact nomatch hn.symm.trans h

theorem wellFormed_of_responsesTo {i : Instr} {is : List Instr} {fs : List Frame} {xs : List Response}
    (h : responsesTo (i :: is) fs = some xs) : i.wellFormed = true := by
  cases hf : fetches i with
  | true =>
    obtain ⟨op, rfl⟩ := (fetches_iff i).mp hf
    exact wellFormed_readOp op
  | false =>
    obtain ⟨x, ys, hx, -, -⟩ := responsesTo_cons_of_not_fetches hf h
    exact wellFormed_of_responseOf hf hx

@[simp] theorem framesOf_answer (d : Nat) (r : Frame) (k : List FetchAnswer) :
    framesOf (.answer d r :: k) = r :: framesOf k := rfl

/-- The next frame comes from the next answer. -/
theorem framesOf_eq_cons {l : List FetchAnswer} {r : Frame} {rest : List Frame} (h : framesOf l = r :: rest) :
    ∃ d k, l = .answer d r :: k ∧ framesOf k = rest := by
  match l, h with
  | .answer d _ :: k, rfl => exact ⟨d, k, rfl, rfl⟩

/-! ### The steps that remain -/

/-- The steps the phase takes when no answer is late. -/
def Phase.stepsLeft : Phase → Nat
  | .idle => 0
  | .waitFetch _ => 1
  | .busy _ => 2

/-- The steps the coming commands take when no answer is late: the wait, the acceptance, and at most two in flight. -/
def hostSteps (h : List Presentation) : Nat := (h.map fun p => p.wait + 3).sum

/-- The steps in `WaitFetch` before the FrameAcquirer answers (R29). -/
def FetchAnswer.delay : FetchAnswer → Nat
  | .answer d _ => d
  | .never => 0

/-- The steps in `WaitFetch` before the next `n` requests are answered. -/
def fetchDelay (n : Nat) (l : List FetchAnswer) : Nat := ((l.take n).map FetchAnswer.delay).sum

/-- A bound on the steps until nothing is pending. -/
def State.stepsLeft (s : State) : Nat :=
  s.phase.stepsLeft + hostSteps s.host + fetchDelay s.fetchesLeft s.acquirer

@[simp] theorem hostSteps_nil : hostSteps [] = 0 := rfl

@[simp] theorem hostSteps_cons (d : Nat) (c : Command) (k : List Presentation) :
    hostSteps (⟨d, c⟩ :: k) = d + 3 + hostSteps k := rfl

@[simp] theorem fetchDelay_zero (l : List FetchAnswer) : fetchDelay 0 l = 0 := rfl

@[simp] theorem fetchDelay_succ_answer (n d : Nat) (r : Frame) (k : List FetchAnswer) :
    fetchDelay (n + 1) (.answer d r :: k) = d + fetchDelay n k := rfl

/-- The host's move takes no step away from TCFD. -/
theorem hostSteps_hostMove_le (h : List Presentation) : hostSteps (hostMove h) ≤ hostSteps h := by
  rcases h with _ | ⟨⟨_ | d, c⟩, k⟩
  · rfl
  · rfl
  · rw [hostMove_coming, hostSteps_cons, hostSteps_cons]
    omega

/-- With no command on the port the host's list is empty, or its first command comes nearer. -/
theorem hostSteps_of_cmdPort_none {s : State} (h : s.cmdPort = none) :
    s.host = [] ∨ hostSteps (hostMove s.host) < hostSteps s.host := by
  unfold State.cmdPort at h
  rcases hh : s.host with _ | ⟨⟨_ | d, c⟩, k⟩
  · exact .inl rfl
  · simp [hh] at h
  · refine .inr ?_
    rw [hostMove_coming, hostSteps_cons, hostSteps_cons]
    omega

theorem pending_eq_nil_of_stepsLeft {s : State} (h : s.stepsLeft = 0) : s.pending = [] := by
  obtain ⟨hphase, hhost⟩ : s.phase.stepsLeft = 0 ∧ hostSteps s.host = 0 := by
    unfold State.stepsLeft at h
    omega
  refine State.pending_eq_nil_iff.mpr ⟨?_, ?_⟩
  · cases hp : s.phase <;> simp [hp, Phase.stepsLeft] at hphase
    rfl
  · cases hh : s.host with
    | nil => rfl
    | cons p k => simp [hh, hostSteps] at hhost

/-! ### One step of the simulation -/

/-- The next step delivers the first of the responses `xs` or nothing, the machine owes the others, and it is one step
nearer the end. -/
def State.PaysInOneStep (s : State) (xs : List Response) (fs : List Frame) : Prop :=
  ∃ t ys, step s = .next t ∧ xs = t.rsp.toList ++ ys ∧ t.Owes ys fs ∧ t.stepsLeft ≤ s.stepsLeft - 1

section
variable {s t : State} {xs : List Response} {fs : List Frame}

theorem State.Owes.resetNow_eq (h : s.Owes xs fs) : resetNow s = false := by
  unfold resetNow
  cases hr : s.rst with
  | nil => rfl
  | cons b k => exact h.noReset b (by simp [hr])

theorem State.Owes.noReset_tail (h : s.Owes xs fs) : ∀ b ∈ s.rst.tail, b = false :=
  fun b hb => h.noReset b (List.mem_of_mem_tail hb)

/-- A step that delivers nothing and uses up neither an operation nor a frame. -/
theorem State.Owes.pays_of_quiet (h : s.Owes xs fs) (hstep : step s = .next t) (hrsp : t.rsp = none)
    (hrst : t.rst = s.rst.tail) (hpending : t.pending = s.pending)
    (hframes : framesOf t.acquirer = framesOf s.acquirer)
    (hless : t.phase.stepsLeft + hostSteps t.host + fetchDelay s.fetchesLeft t.acquirer ≤ s.stepsLeft - 1) :
    s.PaysInOneStep xs fs := by
  have hleft : t.fetchesLeft = s.fetchesLeft := by rw [State.fetchesLeft, hpending, State.fetchesLeft]
  refine ⟨t, xs, hstep, by rw [hrsp]; rfl, ⟨hrst ▸ h.noReset_tail, ?_, ?_⟩, ?_⟩
  · rw [hpending, hframes]
    exact h.responses
  · rw [hleft, hframes]
    exact h.unused
  · rw [State.stepsLeft, hleft]
    exact hless

/-- A step that delivers `x`, the response of the operation in flight, and leaves the answers `k` to the commands of the
host. -/
theorem State.Owes.pays_of_response {x : Response} {ys : List Response} {k : List FetchAnswer}
    (h : s.Owes (x :: ys) fs) (hstep : step s = .next (respond x { advanceInputs s with acquirer := k }))
    (howed : responsesTo (operationsOf s.host) (framesOf k) = some ys)
    (hunused : (framesOf k).drop ((operationsOf s.host).countP fetches) = fs)
    (hless : hostSteps s.host + fetchDelay ((operationsOf s.host).countP fetches) k ≤ s.stepsLeft - 1) :
    s.PaysInOneStep (x :: ys) fs := by
  have hpending : (respond x { advanceInputs s with acquirer := k }).pending = operationsOf s.host :=
    (State.pending_eq rfl rfl).trans (operationsOf_hostMove s.host)
  refine ⟨_, ys, hstep, rfl, ⟨h.noReset_tail, hpending ▸ howed, ?_⟩, ?_⟩
  · rw [State.fetchesLeft, hpending]
    exact hunused
  · have hhost := hostSteps_hostMove_le s.host
    rw [State.stepsLeft, State.fetchesLeft, hpending, respond_phase, respond_host, Phase.stepsLeft]
    exact le_trans (by simpa using hhost) hless

/-- In `Idle` the command on the port goes into flight, and its response is still owed; else the host's next one comes
nearer, if there is one. -/
theorem State.Owes.pays_of_idle (h : s.Owes xs fs) (hp : s.phase = .idle) : s.PaysInOneStep xs fs := by
  have hstep := step_of_idle h.resetNow_eq hp
  rcases acceptCommand_cases exec s.cmdPort (advanceInputs s) with ⟨c, o, hc, hd, -, e⟩ | ⟨c, hc, hw, -⟩ | ⟨hc, e⟩
  · obtain ⟨k, hk⟩ := cmdPort_eq_some_iff.mp hc
    refine h.pays_of_quiet (hstep.trans e) rfl rfl ?_ rfl ?_
    · simp [State.pending, Phase.inFlight, operationsOf, hp, hk, hd]
    · simp only [State.stepsLeft, hp, hk, takeCommand_phase, takeCommand_host, takeCommand_acquirer,
        advanceInputs_host, advanceInputs_acquirer, hostMove_presented, List.tail_cons, hostSteps_cons,
        Phase.stepsLeft]
      omega
  · obtain ⟨k, hk⟩ := cmdPort_eq_some_iff.mp hc
    have howed := h.responses
    rw [State.pending_eq hp hk] at howed
    exact absurd ((wellFormed_of_responsesTo howed).symm.trans hw) nofun
  · refine h.pays_of_quiet (hstep.trans e) rfl rfl (by simp [State.pending]) rfl ?_
    simp only [State.stepsLeft, quiet_phase, quiet_host, quiet_acquirer, advanceInputs_phase, advanceInputs_host,
      advanceInputs_acquirer]
    rcases hostSteps_of_cmdPort_none hc with hh | hless
    · have hnone : s.fetchesLeft = 0 := by
        rw [State.fetchesLeft, State.pending_eq_nil_iff.mpr ⟨hp, hh⟩, List.countP_nil]
      simp [hp, hh, hnone, Phase.stepsLeft]
    · omega

/-- A command in flight requests its frame, or completes with the response it owes. -/
theorem State.Owes.pays_of_busy {o : Operation} (h : s.Owes xs fs) (hp : s.phase = .busy o) :
    s.PaysInOneStep xs fs := by
  have hstep := step_of_busy h.resetNow_eq hp
  cases hf : fetches o.instr with
  | true =>
    obtain ⟨op, ho⟩ := (fetches_iff _).mp hf
    rw [ho, exec_readOp_of_not_waiting (by simp [hp])] at hstep
    refine h.pays_of_quiet hstep rfl rfl ?_ rfl ?_
    · simp [State.pending, Phase.inFlight, hp, ho]
    · have hhost := hostSteps_hostMove_le s.host
      simp only [State.stepsLeft, hp, requestFrame_phase, requestFrame_host, requestFrame_acquirer,
        advanceInputs_host, advanceInputs_acquirer, Phase.stepsLeft]
      omega
  | false =>
    have hpending : s.pending = o.instr :: operationsOf s.host := State.pending_eq hp rfl
    have hleft : s.fetchesLeft = (operationsOf s.host).countP fetches := by
      rw [State.fetchesLeft, hpending, List.countP_cons_of_neg (by simp [hf])]
    have howed := h.responses
    rw [hpending] at howed
    obtain ⟨x, ys, hx, hys, rfl⟩ := responsesTo_cons_of_not_fetches hf howed
    rcases exec_of_not_fetches hf (advanceInputs s) 0#32 with ⟨x', hx', e⟩ | ⟨hn, -⟩
    · cases hx.symm.trans hx'
      refine h.pays_of_response (hstep.trans e) hys (hleft ▸ h.unused) ?_
      simp only [State.stepsLeft, hp, hleft, Phase.stepsLeft]
      omega
    · exact absurd (hx.symm.trans hn) nofun

/-- A pending fetch is answered, or comes one step nearer to its answer. -/
theorem State.Owes.pays_of_waitFetch {op : ReadOp} (h : s.Owes xs fs) (hp : s.phase = .waitFetch op) :
    s.PaysInOneStep xs fs := by
  have hpending : s.pending = op.instr :: operationsOf s.host := State.pending_eq hp rfl
  have hleft : s.fetchesLeft = (operationsOf s.host).countP fetches + 1 := by
    rw [State.fetchesLeft, hpending, List.countP_cons_of_pos (fetches_readOp op)]
  have howed := h.responses
  rw [hpending] at howed
  obtain ⟨r, rest, ys, hr, hys, rfl⟩ := responsesTo_cons_of_readOp howed
  obtain ⟨d, k, hk, rfl⟩ := framesOf_eq_cons hr
  cases d with
  | zero =>
    have hunused := h.unused
    rw [hr, hleft, List.drop_succ_cons] at hunused
    refine h.pays_of_response (step_of_answered h.resetNow_eq hp hk) hys hunused ?_
    simp only [State.stepsLeft, hp, hk, hleft, fetchDelay_succ_answer, Phase.stepsLeft]
    omega
  | succ d =>
    have hstep := step_of_waitFetch h.resetNow_eq hp
    rw [exec_readOp_of_fetch_none (s := advanceInputs s) hp (fetch_of_delayed hk)] at hstep
    refine h.pays_of_quiet hstep rfl rfl (by simp [State.pending]) (by simp [hk]) ?_
    have hhost := hostSteps_hostMove_le s.host
    simp only [State.stepsLeft, hp, hk, hleft, quiet_phase, quiet_host, quiet_acquirer, advanceInputs_phase,
      advanceInputs_host, fetchDelay_succ_answer, Phase.stepsLeft]
    omega

theorem State.Owes.pays (h : s.Owes xs fs) : s.PaysInOneStep xs fs := by
  cases hp : s.phase with
  | idle => exact h.pays_of_idle hp
  | busy o => exact h.pays_of_busy hp
  | waitFetch op => exact h.pays_of_waitFetch hp

/-- The simulation along a run: what has been delivered and what is still owed make up what was owed. -/
theorem State.Owes.run (h : s.Owes xs fs) (m : Nat) :
    ∃ t ys zs, runN m s = some (ys, t) ∧ xs = ys ++ zs ∧ t.Owes zs fs ∧ t.stepsLeft ≤ s.stepsLeft - m := by
  induction m with
  | zero => exact ⟨s, [], xs, rfl, rfl, h, le_rfl⟩
  | succ m ih =>
    obtain ⟨t, ys, _, hrun, rfl, ht, hle⟩ := ih
    obtain ⟨u, zs, hstep, rfl, hu, hle'⟩ := ht.pays
    exact ⟨u, ys ++ u.rsp.toList, zs, runN_append hrun (runN_one hstep), (List.append_assoc ..).symm, hu, by omega⟩

/-- With nothing pending nothing is owed, and no more frame is used. -/
theorem State.Owes.of_pending_nil (h : s.Owes xs fs) (hnil : s.pending = []) :
    xs = [] ∧ framesOf s.acquirer = fs := by
  obtain ⟨-, hresp, hunused⟩ := h
  rw [State.fetchesLeft, hnil] at hunused
  rw [hnil] at hresp
  exact ⟨(Option.some.inj hresp).symm, hunused⟩

end

/-- Settles O49: the simulation, run until no step is left. -/
theorem runsDeliverExactlyTheResponsesOwed : Obligations.RunsDeliverExactlyTheResponsesOwed := by
  intro s xs hp hrst hxs
  have hpending : s.pending = operationsOf s.host := State.pending_eq hp rfl
  have howes : s.Owes xs ((framesOf s.acquirer).drop ((operationsOf s.host).countP fetches)) :=
    ⟨hrst, by rw [hpending, hxs], by rw [State.fetchesLeft, hpending]⟩
  refine ⟨s.stepsLeft, fun m hm => ?_⟩
  obtain ⟨t, ys, zs, hrun, rfl, ht, hle⟩ := howes.run m
  have hnil : t.pending = [] := pending_eq_nil_of_stepsLeft (by omega)
  obtain ⟨rfl, hframes⟩ := ht.of_pending_nil hnil
  obtain ⟨hidle, hserved⟩ := State.pending_eq_nil_iff.mp hnil
  exact ⟨t, by rw [hrun, List.append_nil], hidle, hserved, hframes⟩

/-! ### Reset -/

theorem abandonFetch_of_not_waiting {p : Phase} (h : ∀ op, p ≠ .waitFetch op) (l : List FetchAnswer) :
    abandonFetch p l = l := by
  cases p with
  | idle => rfl
  | busy o => rfl
  | waitFetch op => exact absurd rfl (h op)

/-- Settles O39, by what the reset move makes of the answers still to come. -/
theorem resetAbandonsTheCommandInFlight : Obligations.ResetAbandonsTheCommandInFlight := by
  intro s k hk
  have hstep : step s = .next (resetMove (advanceInputs s)) := step_of_reset (by simp [resetNow, hk])
  refine ⟨fun op hp => ?_, fun hp => ?_⟩ <;> rw [hstep]
  · simp [resetMove, advanceInputs, hk, hp]
  · simp [resetMove, advanceInputs, hk, abandonFetch_of_not_waiting hp]

/-! ### The host's liberty -/

/-- `cmd_valid` is 1 exactly when the wait of the host's next command is over (R34, R116). -/
theorem cmdValid_iff_of_host {s : State} {d : Nat} {c : Command} {k : List Presentation} (hh : s.host = ⟨d, c⟩ :: k) :
    s.cmdValid = true ↔ d = 0 := by
  cases d <;> simp [State.cmdValid, State.cmdPort, hh]

/-- The first step of a run that is not refused. -/
theorem exists_step_of_runN_succ {m : Nat} {s t : State} {xs : List Response} (h : runN (m + 1) s = some (xs, t)) :
    ∃ u ys, step s = .next u ∧ runN m u = some (ys, t) := by
  rw [runN] at h
  split at h
  · next u hu =>
    obtain ⟨⟨ys, v⟩, hrun, he⟩ := Option.map_eq_some_iff.mp h
    cases he
    exact ⟨u, ys, hu, hrun⟩
  · cases h
  · cases h

/-- A coming command is one step nearer after every step of a run, whatever TCFD does (R116). -/
theorem host_of_runN {m d : Nat} {s t : State} {xs : List Response} {c : Command} {k : List Presentation}
    (hh : s.host = ⟨d + m, c⟩ :: k) (h : runN m s = some (xs, t)) : t.host = ⟨d, c⟩ :: k := by
  obtain ⟨-, -, hnearer, -⟩ := commandsWaitUntilIdleAndAreNeverLost
  induction m generalizing s xs with
  | zero =>
    cases h
    exact hh
  | succ m ih =>
    obtain ⟨u, ys, hstep, hrun⟩ := exists_step_of_runN_succ h
    exact ih (hnearer s u (d + m) c k hstep hh) hrun

/-- Settles O51, by induction over the run. -/
theorem hostPresentsAtAnyTime : Obligations.HostPresentsAtAnyTime := by
  intro s n c k hh m xs t hm hrun
  have ht : t.host = ⟨n - m, c⟩ :: k := host_of_runN (by rw [hh, Nat.sub_add_cancel hm]) hrun
  refine ⟨ht, ?_, ?_⟩
  · rw [cmdValid_iff_of_host ht]
    omega
  · rintro rfl
    exact cmdPort_eq_some_iff.mpr ⟨k, by rw [ht, Nat.sub_self]⟩

end Sys2Proof.Machine
end
